-- ==== Sys2Proof/Word.lean ====
section
/-! DEFINITION. The word types of the unit, and the names of its three address spaces. -/

namespace Sys2Proof

/-- A 64-bit word: generator registers, operands, results, buffer words (00_scope.md R8, R9; 20_memory.md R52). -/
abbrev Word := BitVec 64

/-- A 32-bit word: the generator's output and the fields that keep the lengths (00_scope.md R8; 10_state.md R29). -/
abbrev Word32 := BitVec 32

/-- A command packet of format `CMD`, 136 bits: `op` in bits 135:128, `a` in 127:64, `b` in 63:0 (30_encoding.md R71). -/
abbrev Packet := BitVec 136

/-- A response packet of format `RSP`, 72 bits: `status` in bits 71:64, `value` in 63:0 (30_encoding.md R73). -/
abbrev ResponsePacket := BitVec 72

/-- The three address spaces (20_memory.md R50). There is no other (R50, R55). -/
inductive Space where
  /-- `EBUF`, the element buffer (10_state.md R30). -/
  | ebuf
  /-- `WBUF`, the weight buffer (10_state.md R31). -/
  | wbuf
  /-- `OBUF`, the output buffer (10_state.md R32). -/
  | obuf
  deriving DecidableEq, Repr

end Sys2Proof
end

