-- ==== Sys2Proof/Syntax.lean ====
section
/-! DEFINITION. The commands of the unit: one constructor for each row of the opcode table (30_encoding.md R75). A
constructor carries the operands the command uses; operand fields a command ignores (R72) are no part of it. -/

namespace Sys2Proof

/-- A command (00_scope.md R3: "the commands are this hardware's instructions"). -/
inductive Instr where
  /-- `INIT` (op 01): `a` = seed, u64 (42_seeding.md R125). -/
  | init (seed : Word)
  /-- `NEXTU32` (op 10) (41_output_permutation.md R116). -/
  | nextu32
  /-- `NEXTINT0` (op 20) (43_uniform_sampler.md R131). -/
  | nextint0
  /-- `NEXTINT1` (op 21): `a` = bound, s64 (43_uniform_sampler.md R132). -/
  | nextint1 (bound : Word)
  /-- `NEXTINT2` (op 22): `a` = min, s64; `b` = max, s64 (43_uniform_sampler.md R133). -/
  | nextint2 (min max : Word)
  /-- `NEXTFLT0` (op 30) (44_float_converter.md R160). -/
  | nextflt0
  /-- `NEXTFLT1` (op 31): `a` = bound, f64 (44_float_converter.md R161). -/
  | nextflt1 (bound : Word)
  /-- `NEXTFLT2` (op 32): `a` = min, f64; `b` = max, f64 (44_float_converter.md R162). -/
  | nextflt2 (min max : Word)
  /-- `PERM` (op 40) (45_array_shuffle.md R195). -/
  | perm
  /-- `PERMN` (op 41): `a` = n, u64 (45_array_shuffle.md R196). -/
  | permn (n : Word)
  /-- `SHUF` (op 42) (45_array_shuffle.md R197). -/
  | shuf
  /-- `WCHI` (op 50) (46_weighted_choice.md R225). -/
  | wchi
  /-- `WCHE` (op 51) (46_weighted_choice.md R226). -/
  | wche
  /-- `WRE` (op 60): `a` = index, u64; `b` = word, u64 (47_buffer_access.md R241). -/
  | wre (index word : Word)
  /-- `RDE` (op 61): `a` = index, u64 (47_buffer_access.md R242). -/
  | rde (index : Word)
  /-- `WRW` (op 62): `a` = index, u64; `b` = word, f64 (47_buffer_access.md R243). -/
  | wrw (index word : Word)
  /-- `RDW` (op 63): `a` = index, u64 (47_buffer_access.md R244). -/
  | rdw (index : Word)
  /-- `RDO` (op 64): `a` = index, u64 (47_buffer_access.md R247). -/
  | rdo (index : Word)
  /-- `SETLEN` (op 68): `a` = n, u64 (47_buffer_access.md R245). -/
  | setlen (n : Word)
  /-- `SETWLEN` (op 69): `a` = n, u64 (47_buffer_access.md R246). -/
  | setwlen (n : Word)
  /-- `GETLEN` (op 6A) (47_buffer_access.md R248). -/
  | getlen
  /-- `GETWLEN` (op 6B) (47_buffer_access.md R249). -/
  | getwlen
  /-- `GETOLEN` (op 6C) (47_buffer_access.md R250). -/
  | getolen
  deriving DecidableEq, Repr

end Sys2Proof
end

