-- ==== Sys2Proof/WellFormed.lean ====
section
/-! DEFINITION. Well-formedness of commands and of packets. Operands are whole 64-bit words and "every 64-bit value of a
used field is either given a meaning or mapped to a named fault" (30_encoding.md R79), so a command has no ill-formed
operand; what can be ill-formed is a packet, by its opcode (R78). -/

namespace Sys2Proof

/-- The 23 opcodes of the opcode map, in its order (30_encoding.md R75). -/
def legalOpcodes : List (BitVec 8) :=
  [0x01#8, 0x10#8, 0x20#8, 0x21#8, 0x22#8, 0x30#8, 0x31#8, 0x32#8, 0x40#8, 0x41#8, 0x42#8, 0x50#8, 0x51#8]
  ++ [0x60#8, 0x61#8, 0x62#8, 0x63#8, 0x64#8, 0x68#8, 0x69#8, 0x6A#8, 0x6B#8, 0x6C#8]

/-- The check on a packet: its opcode, bits 135:128, is in the opcode map (30_encoding.md R75, R78). No other bit is looked
at (R79). -/
def packetWf (p : Packet) : Bool := legalOpcodes.contains (p.extractLsb' 128 8)

/-- The check on a command: none is needed, for any operand of any command (30_encoding.md R79). -/
def Instr.wf : Instr → Bool
  | .init _ => true
  | .nextu32 => true
  | .nextint0 => true
  | .nextint1 _ => true
  | .nextint2 _ _ => true
  | .nextflt0 => true
  | .nextflt1 _ => true
  | .nextflt2 _ _ => true
  | .perm => true
  | .permn _ => true
  | .shuf => true
  | .wchi => true
  | .wche => true
  | .wre _ _ => true
  | .rde _ => true
  | .wrw _ _ => true
  | .rdw _ => true
  | .rdo _ => true
  | .setlen _ => true
  | .setwlen _ => true
  | .getlen => true
  | .getwlen => true
  | .getolen => true

end Sys2Proof
end

