-- ==== Sys2Proof/Decode.lean ====
section
/-! DEFINITION. The decoder of command packets, total on all 136-bit words, and the encoder (30_encoding.md R70 to R79). -/

namespace Sys2Proof

/-- What the decoder reads from a packet: a command, or a reserved opcode, named (30_encoding.md R78). -/
inductive Decoded where
  | command (i : Instr)
  | reserved (op : BitVec 8)
  deriving DecidableEq, Repr

/-- Field `op`, bits 135:128 (30_encoding.md R71). -/
def packetOp (p : Packet) : BitVec 8 := p.extractLsb' 128 8

/-- Field `a`, bits 127:64 (30_encoding.md R71). -/
def packetA (p : Packet) : Word := p.extractLsb' 64 64

/-- Field `b`, bits 63:0 (30_encoding.md R71). -/
def packetB (p : Packet) : Word := p.extractLsb' 0 64

/-- The packet `{op, a, b}` (30_encoding.md R71). -/
def mkPacket (op : BitVec 8) (a b : Word) : Packet := op ++ a ++ b

/-- The opcode map (30_encoding.md R75), selected by `op` alone; every other opcode is reserved (R78). -/
def decodeFields (op : BitVec 8) (a b : Word) : Decoded :=
  match op with
  | 0x01#8 => .command (.init a)
  | 0x10#8 => .command .nextu32
  | 0x20#8 => .command .nextint0
  | 0x21#8 => .command (.nextint1 a)
  | 0x22#8 => .command (.nextint2 a b)
  | 0x30#8 => .command .nextflt0
  | 0x31#8 => .command (.nextflt1 a)
  | 0x32#8 => .command (.nextflt2 a b)
  | 0x40#8 => .command .perm
  | 0x41#8 => .command (.permn a)
  | 0x42#8 => .command .shuf
  | 0x50#8 => .command .wchi
  | 0x51#8 => .command .wche
  | 0x60#8 => .command (.wre a b)
  | 0x61#8 => .command (.rde a)
  | 0x62#8 => .command (.wrw a b)
  | 0x63#8 => .command (.rdw a)
  | 0x64#8 => .command (.rdo a)
  | 0x68#8 => .command (.setlen a)
  | 0x69#8 => .command (.setwlen a)
  | 0x6A#8 => .command .getlen
  | 0x6B#8 => .command .getwlen
  | 0x6C#8 => .command .getolen
  | _ => .reserved op

/-- The decoder: total on every 136-bit word (30_encoding.md R70, R75, R78). -/
def decode (p : Packet) : Decoded := decodeFields (packetOp p) (packetA p) (packetB p)

/-- The encoder, from the opcode map (30_encoding.md R75); operand fields a command ignores are encoded as 0 (R80). -/
def encode : Instr → Packet
  | .init seed => mkPacket 0x01#8 seed 0
  | .nextu32 => mkPacket 0x10#8 0 0
  | .nextint0 => mkPacket 0x20#8 0 0
  | .nextint1 bound => mkPacket 0x21#8 bound 0
  | .nextint2 min max => mkPacket 0x22#8 min max
  | .nextflt0 => mkPacket 0x30#8 0 0
  | .nextflt1 bound => mkPacket 0x31#8 bound 0
  | .nextflt2 min max => mkPacket 0x32#8 min max
  | .perm => mkPacket 0x40#8 0 0
  | .permn n => mkPacket 0x41#8 n 0
  | .shuf => mkPacket 0x42#8 0 0
  | .wchi => mkPacket 0x50#8 0 0
  | .wche => mkPacket 0x51#8 0 0
  | .wre index word => mkPacket 0x60#8 index word
  | .rde index => mkPacket 0x61#8 index 0
  | .wrw index word => mkPacket 0x62#8 index word
  | .rdw index => mkPacket 0x63#8 index 0
  | .rdo index => mkPacket 0x64#8 index 0
  | .setlen n => mkPacket 0x68#8 n 0
  | .setwlen n => mkPacket 0x69#8 n 0
  | .getlen => mkPacket 0x6A#8 0 0
  | .getwlen => mkPacket 0x6B#8 0 0
  | .getolen => mkPacket 0x6C#8 0 0

/-- The packet whose bits are `w`, of which `nbits` are given and the others are 0. The opcode table numbers a packet's bits
as 30_encoding.md R71 does: it is one 136-bit word, bit 0 its least significant bit. -/
def tablePacket (nbits w : Nat) : Packet := BitVec.ofNat 136 (w % 2 ^ nbits)

/-- The command the decoder reads from the packet whose bits, numbered as the opcode table numbers them, are `w`; none for a
reserved opcode. -/
def decodeTableWord (nbits w : Nat) : Option Instr :=
  match decode (tablePacket nbits w) with
  | .command i => some i
  | .reserved _ => none

end Sys2Proof
end

