-- ==== Sys2Proof/Config.lean ====
section
/-! DEFINITION. The parameters of an instance (00_scope.md R7) and the free values: what the spec leaves open, as constants
without a body, of which nothing can be proved. -/

namespace Sys2Proof

/-- The parameters of an instance (00_scope.md R7; 92_eei_decisions.md, named open parameters). None changes while the unit
runs. `nMax` is `N_MAX`, whose upper bound `2^32 - 1` is its width. -/
structure Config where
  multInit : Word
  incrInit : Word
  defaultState : Word
  nMax : Word32
  deriving DecidableEq, Repr

/-- The only constraint on the parameters that their widths do not already impose: `1 ≤ N_MAX` (00_scope.md R7). The
multiplier and the increment are not checked (10_state.md R26, R27; U9). -/
abbrev Config.wf (c : Config) : Prop := 1 ≤ c.nMax.toNat

/-- `multiplier`, the source's default (00_scope.md R7). -/
def Config.defaultMult : Word := 6364136223846793005#64

/-- `increment`, the source's default (00_scope.md R7). -/
def Config.defaultIncr : Word := 1442695040888963407#64

/-- FREE VALUE: `DEFAULT_STATE`, named by the source and printed nowhere (92_eei_decisions.md D6; log entry 4). -/
opaque Config.freeDefaultState : Word

/-- FREE VALUE: the capacity of the buffers (92_eei_decisions.md D15; log entry 5). -/
opaque Config.freeNMax : Word32

/-- FREE VALUE: the content of a buffer word never written since reset: `freeWord powerUp space index`, fixed from reset
until the word is written (93_implementation_defined.md U1; log entry 7). `powerUp` names the power-up. -/
opaque Config.freeWord : Nat → Space → Nat → Word

end Sys2Proof
end

