-- ==== Sys2Proof/Machine/Instance.lean ====
section
/-! DEFINITION. The instance whose reset state is `State.reset`. -/

namespace Sys2Proof.Machine

/-- The source's default multiplier and increment (00_scope.md R7; log entry 6), and the two OPEN parameters left open:
`DEFAULT_STATE` (log entry 4) and `N_MAX` (log entry 5), of which only `1 ≤ N_MAX` holds. -/
def unitConfig : Config where
  multInit := Config.defaultMult
  incrInit := Config.defaultIncr
  defaultState := Config.freeDefaultState
  nMax := if Config.freeNMax = 0 then 1 else Config.freeNMax

end Sys2Proof.Machine
end

