-- ==== Sys2Proof/Machine/State.lean ====
section
/-! DEFINITION. The state of the unit (10_state.md), the state after reset (R40), and the reasons a step can stop. -/

namespace Sys2Proof.Machine

/-- The status of a response (60_exceptions.md R261). A status other than `ok` is what the spec calls a fault: the command
ends, the state is as before, and the unit goes on (R262, R271). -/
inductive Status where
  /-- `OK`, 0x00: the command completed. -/
  | ok
  /-- `InvalidRange`, 0x01 (R263). -/
  | invalidRange
  /-- `LengthMismatch`, 0x02 (R264). -/
  | lengthMismatch
  /-- `EmptyInput`, 0x03 (R265). -/
  | emptyInput
  /-- `BadCommand`, 0x04 (30_encoding.md R78). -/
  | badCommand
  /-- `BadIndex`, 0x05 (47_buffer_access.md R240). -/
  | badIndex
  deriving DecidableEq, Repr

/-- A response, format `RSP` (30_encoding.md R73). -/
structure Response where
  status : Status
  value : Word
  deriving DecidableEq, Repr

/-- The words of one buffer that have been written since reset: (index, word) pairs, indices strictly rising. A word not
listed has never been written and holds an unspecified value (93_implementation_defined.md U1; log entries 7 and 10). -/
abbrev Buffer := List (Nat × Word)

/-- Every index is at least `lo`, and they strictly rise. -/
def Buffer.risesFrom : Nat → Buffer → Bool
  | _, [] => true
  | lo, (i, _) :: rest => decide (lo ≤ i) && Buffer.risesFrom (i + 1) rest

/-- Every index is below `n`. -/
def Buffer.below (n : Nat) (b : Buffer) : Bool := b.all fun c => decide (c.1 < n)

/-- The canonical form of a buffer of `n` words. -/
def Buffer.wf (n : Nat) (b : Buffer) : Bool := Buffer.risesFrom 0 b && Buffer.below n b

/-- The three buffers (10_state.md R30 to R32); they are disjoint (R33), so each is a field of its own. -/
structure Memory where
  ebuf : Buffer
  wbuf : Buffer
  obuf : Buffer
  deriving DecidableEq, Repr

/-- The canonical form of the memory of an instance whose buffers have `n` words each: indices strictly rising and in the
address space (20_memory.md R50). -/
def Memory.wf (n : Nat) (m : Memory) : Bool :=
  Buffer.wf n m.ebuf && Buffer.wf n m.wbuf && Buffer.wf n m.obuf

/-- The state: the registers and buffers of 10_state.md R20, the capacity `N_MAX` of the instance (00_scope.md R7), the two
ports (log entries 1 and 3), and the model's own `powerUp` (log entry 7). -/
structure State where
  /-- `STATE` (10_state.md R25). -/
  lcgState : Word
  /-- `MULT` (10_state.md R26). -/
  mult : Word
  /-- `INCR` (10_state.md R27). -/
  incr : Word
  /-- `LEN` (10_state.md R29). -/
  len : Word32
  /-- `WLEN` (10_state.md R29). -/
  wlen : Word32
  /-- `OLEN` (10_state.md R29). -/
  olen : Word32
  /-- `EBUF`, `WBUF`, `OBUF` (10_state.md R30 to R32). -/
  mem : Memory
  /-- `N_MAX`, the capacity of this instance; no command writes it (00_scope.md R7). -/
  nMax : Word32
  /-- Which unspecified contents the buffers came up with (the model's own; U1). No command writes it. -/
  powerUp : Nat
  /-- The packets the host has yet to issue, in issue order (20_memory.md R58; 10_state.md R22). -/
  commands : List Packet
  /-- The response of the step just made, if it executed a command (30_encoding.md R73). No command reads it. -/
  response : Option Response
  deriving DecidableEq, Repr

/-- The reasons a step can stop the machine: there are none. Every fault of the spec is a response after which the unit goes
on (60_exceptions.md R262, R271), and a step is a total function (00_scope.md R15). -/
inductive Fault
  deriving DecidableEq, Repr

/-- The reasons a step can refuse a command. -/
inductive Refusal where
  /-- The command of this mnemonic has no meaning yet. Raised by an arm of `exec` only; none raises it. Safe: the run stops. -/
  | notModelled (mnemonic : String)
  deriving DecidableEq, Repr

/-- The state after reset of the instance `c` that came up with the unspecified buffer contents `powerUp` (10_state.md R40;
70_reset_and_hazards.md R291, R292): `STATE` is `DEFAULT_STATE` itself, no `INIT` is run and no draw is made. -/
def State.resetWith (c : Config) (powerUp : Nat) : State where
  lcgState := c.defaultState
  mult := c.multInit
  incr := c.incrInit
  len := 0
  wlen := 0
  olen := 0
  mem := { ebuf := [], wbuf := [], obuf := [] }
  nMax := c.nMax
  powerUp := powerUp
  commands := []
  response := none

/-- The state after reset (10_state.md R40) of the unit of `unitConfig`. -/
def State.reset : State := State.resetWith unitConfig 0

end Sys2Proof.Machine
end

