-- ==== Sys2Proof/Machine/Binary64.lean ====
section
/-! DEFINITION. The binary64 datum, rounding to nearest with ties to even, and the operations the spec uses
(44_float_converter.md R150 to R153). Exact values are integers that count units of 2^-1074, the smallest subnormal; every
finite datum is a whole number of them, and a quotient of two natural numbers of them is any real that occurs. -/

namespace Sys2Proof.Machine

/-- Sign `s = w[63]` (R150). -/
def f64Sign (w : Word) : Bool := w.getLsbD 63

/-- Biased exponent `e = w[62:52]` (R150). -/
def f64Exp (w : Word) : Nat := w.toNat / 2 ^ 52 % 2 ^ 11

/-- Fraction `f = w[51:0]` (R150). -/
def f64Frac (w : Word) : Nat := w.toNat % 2 ^ 52

/-- `finite(w)` is `e ≠ 2047` (R150). -/
def f64Finite (w : Word) : Bool := f64Exp w != 2047

/-- `iszero(w)` is `w[62:0] = 0` (R150). -/
def f64IsZero (w : Word) : Bool := w.toNat % 2 ^ 63 == 0

/-- `e = 2047, f ≠ 0` (R150). -/
def f64IsNaN (w : Word) : Bool := f64Exp w == 2047 && f64Frac w != 0

/-- `e = 2047, f = 0` (R150). -/
def f64IsInf (w : Word) : Bool := f64Exp w == 2047 && f64Frac w == 0

/-- The magnitude of a finite datum in units of 2^-1074: `f` for `e = 0`, else `(2^52 + f) × 2^(e - 1)` (R150). -/
def f64Mag (w : Word) : Nat :=
  if f64Exp w = 0 then f64Frac w else (2 ^ 52 + f64Frac w) * 2 ^ (f64Exp w - 1)

/-- `val(w)` of a finite datum, in units of 2^-1074 (R150). -/
def f64Val (w : Word) : Int := if f64Sign w then -(f64Mag w : Int) else f64Mag w

/-- The sign bit as a number. -/
def signWeight (neg : Bool) : Nat := if neg then 2 ^ 63 else 0

/-- `num / den` to the nearest integer, ties to even. -/
def roundHalfEven (num den : Nat) : Nat :=
  if den < 2 * (num % den) ∨ (2 * (num % den) = den ∧ num / den % 2 = 1) then num / den + 1 else num / den

/-- Bits 62:0 of `RN` of the magnitude `num / den` units of 2^-1074. With `k` bits dropped so that at most 53 are left, the
rounded significand `m` and the exponent field add up to `k × 2^52 + m`, also when `m` reaches `2^53`; from `2047 × 2^52` on
the result is the infinity (R151). -/
def roundMagnitude (num den : Nat) : Nat :=
  min (2047 * 2 ^ 52)
    (((num / den).log2 - 52) * 2 ^ 52 + roundHalfEven num (den * 2 ^ ((num / den).log2 - 52)))

/-- `RN` of the real `± num / den` units of 2^-1074 (R151); `neg` is also the sign of a zero result (R151, R152). -/
def roundNearest (neg : Bool) (num den : Nat) : Word :=
  BitVec.ofNat 64 (signWeight neg + roundMagnitude num den)

/-- The NaN that an invalid operation gives. Which NaN word it is cannot be observed (R152; U10; log entry 8). -/
def nanResult : Word := 0x7FF8000000000000#64

/-- `fadd` (R152). -/
def fadd (x y : Word) : Word :=
  if f64IsNaN x || f64IsNaN y then nanResult
  else if f64IsInf x then (if f64IsInf y && f64Sign x != f64Sign y then nanResult else x)
  else if f64IsInf y then y
  else if f64Val x + f64Val y = 0 then roundNearest (f64Sign x && f64Sign y) 0 1
  else roundNearest (decide (f64Val x + f64Val y < 0)) (f64Val x + f64Val y).natAbs 1

/-- `fsub(x, y)` is `fadd` of `x` and `y` with bit 63 inverted (R152). -/
def fsub (x y : Word) : Word := fadd x (y ^^^ 0x8000000000000000#64)

/-- `fmul` (R152). The product of two magnitudes counts units of 2^-2148. -/
def fmul (x y : Word) : Word :=
  if f64IsNaN x || f64IsNaN y then nanResult
  else if f64IsInf x || f64IsInf y then
    (if f64IsZero x || f64IsZero y then nanResult
     else BitVec.ofNat 64 (signWeight (f64Sign x != f64Sign y) + 2047 * 2 ^ 52))
  else roundNearest (f64Sign x != f64Sign y) (f64Mag x * f64Mag y) (2 ^ 1074)

/-- `flt(x, y)` of finite data (R153); no command compares another (log entry 15). -/
def flt (x y : Word) : Bool := decide (f64Val x < f64Val y)

/-- `fgt(x, y)` of finite data (R153); no command compares another (log entry 15). -/
def fgt (x y : Word) : Bool := decide (f64Val x > f64Val y)

/-- `U32ToUnit(u)`: the datum with value `u × 2^-32`, by its fixed layout (R156). -/
def u32ToUnit (u : Word32) : Word :=
  if u = 0 then 0
  else BitVec.ofNat 64 ((991 + u.toNat.log2) * 2 ^ 52 + (u.toNat - 2 ^ u.toNat.log2) * 2 ^ (52 - u.toNat.log2))

/-- The equivalent datapath with a fixed exponent: `{0, 0x3FF, u, 20 zero bits}` less 1.0 (R158). -/
def u32ToUnitByFixedExponent (u : Word32) : Word :=
  fsub (0x3FF#12 ++ u ++ 0#20) 0x3FF0000000000000#64

end Sys2Proof.Machine
end

