-- ==== Sys2Proof/Machine/Operands.lean ====
section
/-! DEFINITION. The operand forms (30_encoding.md R72), the one addressing mode (47_buffer_access.md R240), and the checks on
operands that raise `BadIndex` and `InvalidRange`. -/

namespace Sys2Proof.Machine

/-- `uval(w)`: the word read as `u64` (00_scope.md R9). -/
def uval (w : Word) : Nat := w.toNat

/-- `sval(w)`: the word read as `s64`: `w` if `w < 2^63`, else `w - 2^64` (00_scope.md R9). -/
def sval (w : Word) : Int := if w.toNat < 2 ^ 63 then (w.toNat : Int) else (w.toNat : Int) - 2 ^ 64

/-- The 64-bit word of an integer, modulo 2^64 (00_scope.md R10; 43_uniform_sampler.md R130). -/
def wordOfInt (r : Int) : Word := BitVec.ofInt 64 r

/-- `zext_64` of a 32-bit value (00_scope.md R9). -/
def zext (v : Word32) : Word := v.setWidth 64

/-- An index is out of range when `uval(a) ≥ N_MAX`, compared on all 64 bits (47_buffer_access.md R240). -/
def badIndex (index : Word) (s : State) : Bool := decide (s.nMax.toNat ≤ uval index)

/-- A length is out of range when `uval(a) > N_MAX` (47_buffer_access.md R245, R246; 45_array_shuffle.md R196). -/
def badLength (n : Word) (s : State) : Bool := decide (s.nMax.toNat < uval n)

/-- The 32-bit length register holding `n`, an operand that is not `badLength`. -/
def lengthOf (n : Word) : Word32 := n.setWidth 32

/-- The checks on a single float bound, in order: not finite, or a zero (44_float_converter.md R161, R163). -/
def floatBoundChecks (bound : Word) : List (Bool × Status) :=
  [(!f64Finite bound, .invalidRange), (f64IsZero bound, .invalidRange)]

/-- The checks on two float bounds, in order (44_float_converter.md R162). -/
def floatRangeChecks (min max : Word) : List (Bool × Status) :=
  [(!f64Finite min || !f64Finite max, .invalidRange), (!flt min max, .invalidRange),
   (!f64Finite (fsub max min), .invalidRange)]

end Sys2Proof.Machine
end

