-- ==== Sys2Proof/Machine/Flags.lean ====
section
/-! DEFINITION. The unit has no flags and no condition codes (10_state.md R23); the one condition a command reports is the
status byte of its response. This file holds its codes, the response packet, and the choice of the fault that is reported. -/

namespace Sys2Proof.Machine

/-- The status codes (60_exceptions.md R261). Values 0x06 to 0xFF are never produced. -/
def statusCode : Status → BitVec 8
  | .ok => 0x00#8
  | .invalidRange => 0x01#8
  | .lengthMismatch => 0x02#8
  | .emptyInput => 0x03#8
  | .badCommand => 0x04#8
  | .badIndex => 0x05#8

/-- The response packet `{status, value}` (30_encoding.md R73). -/
def responsePacket (r : Response) : ResponsePacket := statusCode r.status ++ r.value

/-- The one fault reported among a command's checks: the first whose condition holds (60_exceptions.md R266). -/
def firstFault : List (Bool × Status) → Option Status
  | [] => none
  | (holds, f) :: rest => if holds then some f else firstFault rest

end Sys2Proof.Machine
end

