-- ==== Sys2Proof/Machine/Ops.lean ====
section
/-! DEFINITION. The named operations over registers, buffers and ports that the commands share. -/

namespace Sys2Proof.Machine

/-- The word written last at index `i`, if any has been written since reset. -/
def bufRead : Buffer → Nat → Option Word
  | [], _ => none
  | (j, w) :: rest, i => if i = j then some w else bufRead rest i

/-- The buffer with `v` at index `i`, keeping the indices strictly rising. -/
def bufWrite : Buffer → Nat → Word → Buffer
  | [], i, v => [(i, v)]
  | (j, w) :: rest, i, v =>
    if i < j then (i, v) :: (j, w) :: rest
    else if i = j then (i, v) :: rest
    else (j, w) :: bufWrite rest i v

/-- The buffer that is the address space `sp` (20_memory.md R50). -/
def bufferOf (m : Memory) : Space → Buffer
  | .ebuf => m.ebuf
  | .wbuf => m.wbuf
  | .obuf => m.obuf

/-- The memory with `b` as the address space `sp`; the other two are not touched (10_state.md R33). -/
def withBuffer (m : Memory) (sp : Space) (b : Buffer) : Memory :=
  match sp with
  | .ebuf => { m with ebuf := b }
  | .wbuf => { m with wbuf := b }
  | .obuf => { m with obuf := b }

/-- `MemRead(SPACE, i)` (00_scope.md R11): the word last written there, or the unspecified content it has had since reset
(20_memory.md R58; U1). -/
def memRead (sp : Space) (i : Nat) (s : State) : Word :=
  (bufRead (bufferOf s.mem sp) i).getD (Config.freeWord s.powerUp sp i)

/-- `MemWrite(SPACE, i, v)` (00_scope.md R11). -/
def memWrite (sp : Space) (i : Nat) (v : Word) (s : State) : State :=
  { s with mem := withBuffer s.mem sp (bufWrite (bufferOf s.mem sp) i v) }

/-- `[SPACE[0], …, SPACE[n - 1]]`. -/
def memReadList (sp : Space) (n : Nat) (s : State) : List Word :=
  (List.range n).map fun i => memRead sp i s

/-- `MemWrite(SPACE, i, v)` for each word `v` of the list, at `i`, `i + 1`, … in that order. -/
def memWriteFrom (sp : Space) : Nat → List Word → State → State
  | _, [], s => s
  | i, v :: vs, s => memWriteFrom sp (i + 1) vs (memWrite sp i v s)

/-- `for i in 0 .. n - 1: MemWrite(SPACE, i, P[i])`, where `P` has `n` words. -/
def memWriteList (sp : Space) (l : List Word) (s : State) : State := memWriteFrom sp 0 l s

/-- `respond(v)`: the command ends normally with status `OK` and the value `v` (00_scope.md R11). -/
def respond (v : Word) (s : State) : State := { s with response := some ⟨.ok, v⟩ }

/-- Taking a fault, `raise <Fault>` (60_exceptions.md R271): the command ends, the response carries the status and value 0,
and nothing else of the state changes (R262). There is no vector, no saved register and no mode, and control goes nowhere;
hence there is no return from a fault either (R272). -/
def raiseFault (f : Status) (s : State) : State := { s with response := some ⟨f, 0⟩ }

/-- A command: all its checks, then its effect. The checks look at the state before the command, so a fault precedes every
draw and every write (60_exceptions.md R262), and the first check that holds is the one reported (R266). -/
def runCommand (checks : List (Bool × Status)) (effect : State → State) (s : State) : State :=
  match firstFault checks with
  | some f => raiseFault f s
  | none => effect s

/-- A packet whose opcode is reserved: `BadCommand`, whatever its operands (30_encoding.md R78; 60_exceptions.md R266). -/
def rejectPacket (s : State) : State := raiseFault .badCommand s

/-- The next packet the host issues, and the state in which it is executed (20_memory.md R58). -/
def takeCommand (s : State) : Option (Packet × State) :=
  match s.commands with
  | [] => none
  | p :: rest => some (p, { s with commands := rest })

/-- A step in which the host presents no command: no response is made, and nothing else changes (log entry 2). -/
def idle (s : State) : State := { s with response := none }

/-- `p` presented as the packet the unit executes next, in the place of the one that stood there. -/
def presentCommand (p : Packet) (s : State) : State := { s with commands := p :: s.commands.tail }

end Sys2Proof.Machine
end

