-- ==== Sys2Proof/Machine/BufferAccess.lean ====
section
/-! DEFINITION. The buffer access commands (47_buffer_access.md). None makes a draw. -/

namespace Sys2Proof.Machine

/-- A host write of one word (20_memory.md R51, R54; 47_buffer_access.md R240). -/
def hostWrite (sp : Space) (index word : Word) (s : State) : State :=
  runCommand [(badIndex index s, .badIndex)] (fun s => respond 0 (memWrite sp (uval index) word s)) s

/-- A host read of one word (20_memory.md R51, R54; 47_buffer_access.md R240). -/
def hostRead (sp : Space) (index : Word) (s : State) : State :=
  runCommand [(badIndex index s, .badIndex)] (fun s => respond (memRead sp (uval index) s) s) s

/-- `WRE` (R241). -/
def execWre (index word : Word) (s : State) : Host.Outcome State Fault Refusal := .next (hostWrite .ebuf index word s)

/-- `RDE` (R242). -/
def execRde (index : Word) (s : State) : Host.Outcome State Fault Refusal := .next (hostRead .ebuf index s)

/-- `WRW` (R243). Any word is stored, a NaN too. -/
def execWrw (index word : Word) (s : State) : Host.Outcome State Fault Refusal := .next (hostWrite .wbuf index word s)

/-- `RDW` (R244). -/
def execRdw (index : Word) (s : State) : Host.Outcome State Fault Refusal := .next (hostRead .wbuf index s)

/-- `RDO` (R247). -/
def execRdo (index : Word) (s : State) : Host.Outcome State Fault Refusal := .next (hostRead .obuf index s)

/-- `SETLEN` (R245): the limit is inclusive, and no buffer word changes. -/
def execSetlen (n : Word) (s : State) : Host.Outcome State Fault Refusal :=
  .next (runCommand [(badLength n s, .badIndex)] (fun s => respond 0 { s with len := lengthOf n }) s)

/-- `SETWLEN` (R246). -/
def execSetwlen (n : Word) (s : State) : Host.Outcome State Fault Refusal :=
  .next (runCommand [(badLength n s, .badIndex)] (fun s => respond 0 { s with wlen := lengthOf n }) s)

/-- `GETLEN` (R248). -/
def execGetlen (s : State) : Host.Outcome State Fault Refusal := .next (respond (zext s.len) s)

/-- `GETWLEN` (R249). -/
def execGetwlen (s : State) : Host.Outcome State Fault Refusal := .next (respond (zext s.wlen) s)

/-- `GETOLEN` (R250). -/
def execGetolen (s : State) : Host.Outcome State Fault Refusal := .next (respond (zext s.olen) s)

end Sys2Proof.Machine
end

