-- ==== Sys2Proof/Machine/Generator.lean ====
section
/-! DEFINITION. The generator: `Lcg` and `Advance` (40_lcg_state_advance.md), the output permutation and `NEXTU32`
(41_output_permutation.md), and seeding (42_seeding.md). -/

namespace Sys2Proof.Machine

/-- `Lcg(s, m, c) = (s * m + c) mod 2^64` (R100). -/
def lcg (s m c : Word) : Word := s * m + c

/-- `ror32(y, k)` (R112), 32 bits wide. -/
def ror32 (y : Word32) (k : Nat) : Word32 := (y >>> k) ||| (y <<< ((32 - k) % 32))

/-- The rotation count, `x[63:59]` (R111). -/
def rotationCount (x : Word) : Nat := (x >>> 59).toNat

/-- The xor-shift, 64 bits wide, truncated to 32 bits after the shift by 27 and not before (R113, R114). -/
def xorShift (x : Word) : Word32 := ((x ^^^ (x >>> 18)) >>> 27).setWidth 32

/-- `XshRr(x)` (R113). -/
def xshRr (x : Word) : Word32 := ror32 (xorShift x) (rotationCount x)

/-- `Advance()` (R103): the pre-advance value, and the state with its successor. One execution is one draw. -/
def advance (s : State) : Word × State :=
  (s.lcgState, { s with lcgState := lcg s.lcgState s.mult s.incr })

/-- `NextU32()` (R115): the output comes from the state before the step. -/
def nextU32 (s : State) : Word32 × State :=
  (xshRr (advance s).1, (advance s).2)

/-- `INIT` (42_seeding.md R125): `STATE <- (seed + INCR) mod 2^64`, one draw discarded, respond 0. -/
def execInit (seed : Word) (s : State) : Host.Outcome State Fault Refusal :=
  .next (respond 0 (nextU32 { s with lcgState := seed + s.incr }).2)

/-- `NEXTU32` (41_output_permutation.md R116). -/
def execNextu32 (s : State) : Host.Outcome State Fault Refusal :=
  .next (respond (zext (nextU32 s).1) (nextU32 s).2)

end Sys2Proof.Machine
end

