-- ==== Sys2Proof/Machine/FloatSampler.lean ====
section
/-! DEFINITION. The uniform float sampler (44_float_converter.md R157 to R163): each operation rounded on its own, in the
order the formulas write them (R154, R159). -/

namespace Sys2Proof.Machine

/-- `Base()` (R157): one draw, converted. -/
def base (s : State) : Word × State := (u32ToUnit (nextU32 s).1, (nextU32 s).2)

/-- What `NextFloatBound(t)` returns after its checks `floatBoundChecks t` (R163): one draw, `fmul(Base(), t)`. -/
def nextFloatBound (t : Word) (s : State) : Word × State := (fmul (base s).1 t, (base s).2)

/-- `NEXTFLT0` (R160). -/
def execNextflt0 (s : State) : Host.Outcome State Fault Refusal :=
  .next (respond (base s).1 (base s).2)

/-- `NEXTFLT1` (R161). -/
def execNextflt1 (bound : Word) (s : State) : Host.Outcome State Fault Refusal :=
  .next (runCommand (floatBoundChecks bound)
    (fun s => respond (nextFloatBound bound s).1 (nextFloatBound bound s).2) s)

/-- `NEXTFLT2` (R162): `d <- fsub(max, min)`; `p <- fmul(Base(), d)`; respond `fadd(p, min)`. -/
def execNextflt2 (min max : Word) (s : State) : Host.Outcome State Fault Refusal :=
  .next (runCommand (floatRangeChecks min max)
    (fun s => respond (fadd (fmul (base s).1 (fsub max min)) min) (base s).2) s)

end Sys2Proof.Machine
end

