-- ==== Sys2Proof/Machine/IntSampler.lean ====
section
/-! DEFINITION. The uniform integer sampler (43_uniform_sampler.md): remainder reduction, one draw, no rejection (R139). -/

namespace Sys2Proof.Machine

/-- `NextIntBound(m)` (R140): one draw, `NextU32() mod m`. -/
def nextIntBound (m : Nat) (s : State) : Nat × State :=
  ((nextU32 s).1.toNat % m, (nextU32 s).2)

/-- The one-bound reduction of the output `u`, over the integers: no negation overflows (R132). -/
def reduceBound (u : Word32) (bound : Int) : Int :=
  if bound > 0 then (u.toNat : Int) % bound else (u.toNat : Int) % (-bound) + bound

/-- The two-bound reduction of the output `u`, over the integers: the span may be up to 2^64 - 1 (R133). -/
def reduceRange (u : Word32) (min max : Int) : Int := (u.toNat : Int) % (max - min) + min

/-- `NEXTINT0` (R131): widened with zeros. -/
def execNextint0 (s : State) : Host.Outcome State Fault Refusal :=
  .next (respond (zext (nextU32 s).1) (nextU32 s).2)

/-- `NEXTINT1` (R132). -/
def execNextint1 (bound : Word) (s : State) : Host.Outcome State Fault Refusal :=
  .next (runCommand [(decide (sval bound = 0), .invalidRange)]
    (fun s => respond (wordOfInt (reduceBound (nextU32 s).1 (sval bound))) (nextU32 s).2) s)

/-- `NEXTINT2` (R133). -/
def execNextint2 (min max : Word) (s : State) : Host.Outcome State Fault Refusal :=
  .next (runCommand [(decide (sval max ≤ sval min), .invalidRange)]
    (fun s => respond (wordOfInt (reduceRange (nextU32 s).1 (sval min) (sval max))) (nextU32 s).2) s)

end Sys2Proof.Machine
end

