-- ==== Sys2Proof/Machine/Shuffle.lean ====
section
/-! DEFINITION. The array shuffle (45_array_shuffle.md). -/

namespace Sys2Proof.Machine

/-- The loop of `Permute` (R191) with `k` draws to make, `k + 1` being the length of the working list: the element at the
drawn position goes to the output, the elements after it move down one place, and the last element is placed with no draw. -/
def permuteLoop : Nat → List Word → State → List Word × State
  | 0, work, s => (work, s)
  | k + 1, work, s =>
    let draw := nextIntBound work.length s
    let rest := permuteLoop k (work.eraseIdx draw.1) draw.2
    (work.getD draw.1 0 :: rest.1, rest.2)

/-- `Permute(L)` (R191): `max(n - 1, 0)` draws (R193), first drawn first (R192). -/
def permute (l : List Word) (s : State) : List Word × State := permuteLoop (l.length - 1) l s

/-- The implicit sequence `[0, 1, …, n - 1]`, each element the 64-bit word of its index (R196). -/
def indexWords (n : Nat) : List Word := (List.range n).map fun i => BitVec.ofNat 64 i

/-- `PERM` (R195). -/
def execPerm (s : State) : Host.Outcome State Fault Refusal :=
  .next (let drawn := permute (memReadList .ebuf s.len.toNat s) s
    respond (zext s.len) { memWriteList .obuf drawn.1 drawn.2 with olen := s.len })

/-- `PERMN` (R196). -/
def execPermn (n : Word) (s : State) : Host.Outcome State Fault Refusal :=
  .next (runCommand [(badLength n s, .badIndex)]
    (fun s => let drawn := permute (indexWords (uval n)) s
      respond n { memWriteList .obuf drawn.1 drawn.2 with olen := lengthOf n }) s)

/-- `SHUF` (R197). -/
def execShuf (s : State) : Host.Outcome State Fault Refusal :=
  .next (let drawn := permute (memReadList .ebuf s.len.toNat s) s
    respond (zext s.len) (memWriteList .ebuf drawn.1 drawn.2))

end Sys2Proof.Machine
end

