-- ==== Sys2Proof/Machine/WeightedChoice.lean ====
section
/-! DEFINITION. The weighted discrete choice (46_weighted_choice.md). The sign of a weight is not tested (R228; log entry
11). -/

namespace Sys2Proof.Machine

/-- The weights `WBUF[0 .. WLEN - 1]` (R220). -/
def weights (s : State) : List Word := memReadList .wbuf s.wlen.toNat s

/-- `Total()` (R222): in index order from +0, each addition rounded. -/
def total (ws : List Word) : Word := ws.foldl fadd 0

/-- The scan of `CumScan(r)` (R223) from position `i` with the cumulative sum `c`: the first position where the cumulative
sum strictly exceeds `r`. -/
def scanFrom (r : Word) : Word → Nat → List Word → Option Nat
  | _, _, [] => none
  | c, i, w :: ws => if fgt (fadd c w) r then some i else scanFrom r (fadd c w) (i + 1) ws

/-- `CumScan(r)` (R223), with the last index as the fallback. -/
def cumScan (r : Word) (ws : List Word) : Nat := (scanFrom r 0 0 ws).getD (ws.length - 1)

/-- The checks of `WChoice` (R224), in the order of 60_exceptions.md R266. -/
def choiceChecks (withItems : Bool) (s : State) : List (Bool × Status) :=
  [(decide (s.wlen = 0), .emptyInput), (withItems && decide (s.len ≠ s.wlen), .lengthMismatch)]
  ++ floatBoundChecks (total (weights s))

/-- The index that `WChoice` returns after its checks, and the state after its one draw (R224). -/
def choose (s : State) : Nat × State :=
  let r := nextFloatBound (total (weights s)) s
  (cumScan r.1 (weights s), r.2)

/-- `WCHI` (R225). -/
def execWchi (s : State) : Host.Outcome State Fault Refusal :=
  .next (runCommand (choiceChecks false s)
    (fun s => respond (BitVec.ofNat 64 (choose s).1) (choose s).2) s)

/-- `WCHE` (R226). -/
def execWche (s : State) : Host.Outcome State Fault Refusal :=
  .next (runCommand (choiceChecks true s)
    (fun s => respond (memRead .ebuf (choose s).1 s) (choose s).2) s)

end Sys2Proof.Machine
end

