-- ==== Sys2Proof/Machine/Dispatch.lean ====
section
/-! DEFINITION. Which meaning each command has: one arm for each constructor of `Instr`. -/

namespace Sys2Proof.Machine

/-- The execution of one command (00_scope.md R15). -/
def exec (i : Instr) (s : State) : Host.Outcome State Fault Refusal :=
  match i with
  | .init seed => Sys2Proof.Machine.execInit seed s
  | .nextu32 => Sys2Proof.Machine.execNextu32 s
  | .nextint0 => Sys2Proof.Machine.execNextint0 s
  | .nextint1 bound => Sys2Proof.Machine.execNextint1 bound s
  | .nextint2 min max => Sys2Proof.Machine.execNextint2 min max s
  | .nextflt0 => Sys2Proof.Machine.execNextflt0 s
  | .nextflt1 bound => Sys2Proof.Machine.execNextflt1 bound s
  | .nextflt2 min max => Sys2Proof.Machine.execNextflt2 min max s
  | .perm => Sys2Proof.Machine.execPerm s
  | .permn n => Sys2Proof.Machine.execPermn n s
  | .shuf => Sys2Proof.Machine.execShuf s
  | .wchi => Sys2Proof.Machine.execWchi s
  | .wche => Sys2Proof.Machine.execWche s
  | .wre index word => Sys2Proof.Machine.execWre index word s
  | .rde index => Sys2Proof.Machine.execRde index s
  | .wrw index word => Sys2Proof.Machine.execWrw index word s
  | .rdw index => Sys2Proof.Machine.execRdw index s
  | .rdo index => Sys2Proof.Machine.execRdo index s
  | .setlen n => Sys2Proof.Machine.execSetlen n s
  | .setwlen n => Sys2Proof.Machine.execSetwlen n s
  | .getlen => Sys2Proof.Machine.execGetlen s
  | .getwlen => Sys2Proof.Machine.execGetwlen s
  | .getolen => Sys2Proof.Machine.execGetolen s

end Sys2Proof.Machine
end

