-- ==== Sys2Proof/Machine/Step.lean ====
section
/-! DEFINITION. One step: the execution of one command (00_scope.md R15). -/

namespace Sys2Proof.Machine

/-- One step: the next packet the host issues is taken, decoded and executed; a reserved opcode is answered with
`BadCommand`; with no packet presented the unit is idle. -/
def step (s : State) : Host.Outcome State Fault Refusal :=
  match takeCommand s with
  | none => .next (idle s)
  | some (p, s') =>
    match decode p with
    | .command i => exec i s'
    | .reserved _ => .next (rejectPacket s')

/-- `s` with the packet of that table word presented as the one that `step` executes next (log entry 12). -/
def State.withFetchWord (s : State) (nbits w : Nat) : State := presentCommand (tablePacket nbits w) s

end Sys2Proof.Machine
end

