-- ==== Sys2Proof/Machine/Assembler.lean ====
section
/-! DEFINITION. The notation of command streams: pseudo-instructions and their expansions (30_encoding.md R81), and the
assembler notation, one command a line, over lists of characters (R80). Nothing of the unit depends on it. -/

namespace Sys2Proof.Machine

/-- `SEED s` = `INIT s` (R81). -/
def expandSeed (seed : Word) : List Instr := [.init seed]

/-- `LOADE v0, …, v(k-1)` = `WRE 0, v0`; …; `WRE k-1, v(k-1)`; `SETLEN k` (R81). -/
def expandLoadE (vs : List Word) : List Instr :=
  vs.mapIdx (fun i v => .wre (BitVec.ofNat 64 i) v) ++ [.setlen (BitVec.ofNat 64 vs.length)]

/-- `LOADW w0, …, w(k-1)` = `WRW 0, w0`; …; `WRW k-1, w(k-1)`; `SETWLEN k` (R81). -/
def expandLoadW (ws : List Word) : List Instr :=
  ws.mapIdx (fun i w => .wrw (BitVec.ofNat 64 i) w) ++ [.setwlen (BitVec.ofNat 64 ws.length)]

/-- `DUMPO k` = `RDO 0`; …; `RDO k-1` (R81). -/
def expandDumpO (k : Nat) : List Instr := (List.range k).map fun i => .rdo (BitVec.ofNat 64 i)

/-- `DUMPE k` = `RDE 0`; …; `RDE k-1` (R81). -/
def expandDumpE (k : Nat) : List Instr := (List.range k).map fun i => .rde (BitVec.ofNat 64 i)

/-- How an operand is written (30_encoding.md R72, R80). An operand the command ignores is written as a u64. -/
inductive OperandKind where
  | u64
  | s64
  | f64
  deriving DecidableEq, Repr

/-- The mnemonics, each with its opcode and the kinds of its operands `a` and `b` (30_encoding.md R75). -/
def mnemonicTable : List (List Char × BitVec 8 × OperandKind × OperandKind) :=
  [(['I', 'N', 'I', 'T'], 0x01#8, .u64, .u64), (['N', 'E', 'X', 'T', 'U', '3', '2'], 0x10#8, .u64, .u64),
   (['N', 'E', 'X', 'T', 'I', 'N', 'T', '0'], 0x20#8, .u64, .u64), (['N', 'E', 'X', 'T', 'I', 'N', 'T', '1'], 0x21#8, .s64, .u64),
   (['N', 'E', 'X', 'T', 'I', 'N', 'T', '2'], 0x22#8, .s64, .s64), (['N', 'E', 'X', 'T', 'F', 'L', 'T', '0'], 0x30#8, .u64, .u64),
   (['N', 'E', 'X', 'T', 'F', 'L', 'T', '1'], 0x31#8, .f64, .u64), (['N', 'E', 'X', 'T', 'F', 'L', 'T', '2'], 0x32#8, .f64, .f64),
   (['P', 'E', 'R', 'M'], 0x40#8, .u64, .u64), (['P', 'E', 'R', 'M', 'N'], 0x41#8, .u64, .u64),
   (['S', 'H', 'U', 'F'], 0x42#8, .u64, .u64), (['W', 'C', 'H', 'I'], 0x50#8, .u64, .u64)]
  ++ [(['W', 'C', 'H', 'E'], 0x51#8, .u64, .u64), (['W', 'R', 'E'], 0x60#8, .u64, .u64), (['R', 'D', 'E'], 0x61#8, .u64, .u64),
   (['W', 'R', 'W'], 0x62#8, .u64, .f64), (['R', 'D', 'W'], 0x63#8, .u64, .u64), (['R', 'D', 'O'], 0x64#8, .u64, .u64),
   (['S', 'E', 'T', 'L', 'E', 'N'], 0x68#8, .u64, .u64), (['S', 'E', 'T', 'W', 'L', 'E', 'N'], 0x69#8, .u64, .u64),
   (['G', 'E', 'T', 'L', 'E', 'N'], 0x6A#8, .u64, .u64), (['G', 'E', 'T', 'W', 'L', 'E', 'N'], 0x6B#8, .u64, .u64),
   (['G', 'E', 'T', 'O', 'L', 'E', 'N'], 0x6C#8, .u64, .u64)]

/-- The value of a digit in the base. -/
def digitValue (base : Nat) (c : Char) : Option Nat :=
  let v := if '0' ≤ c ∧ c ≤ '9' then c.toNat - 48
    else if 'a' ≤ c ∧ c ≤ 'f' then c.toNat - 87
    else if 'A' ≤ c ∧ c ≤ 'F' then c.toNat - 55
    else base
  if v < base then some v else none

/-- The number written by the digits, after those already read. -/
def digitsFrom (base : Nat) : Nat → List Char → Option Nat
  | n, [] => some n
  | n, c :: cs =>
    match digitValue base c with
    | some v => digitsFrom base (base * n + v) cs
    | none => none

/-- The number written by one digit or more. -/
def readDigits (base : Nat) : List Char → Option Nat
  | [] => none
  | c :: cs => digitsFrom base 0 (c :: cs)

/-- A number as a 64-bit word, if it fits. -/
def wordIfFits (n : Nat) : Option Word := if n < 2 ^ 64 then some (BitVec.ofNat 64 n) else none

/-- Without a leading minus sign, and whether there was one. -/
def splitSign : List Char → Bool × List Char
  | '-' :: cs => (true, cs)
  | cs => (false, cs)

/-- A decimal literal with a trailing `f`: the binary64 word nearest its value, ties to even (R80). DESIGN CHOICE, log entry 17:
`10f`, `.5f` and `1.f` are literals too, and a leading `-` makes a zero `-0`, a sign that R80 and R151 leave open. -/
def readDecimalFloat (cs : List Char) : Option Word :=
  match (splitSign cs).2.reverse with
  | 'f' :: reversed =>
    let whole := reversed.reverse.takeWhile fun c => c != '.'
    let fraction := (reversed.reverse.dropWhile fun c => c != '.').drop 1
    (readDigits 10 (whole ++ fraction)).map fun n =>
      roundNearest (splitSign cs).1 (n * 2 ^ 1074) (10 ^ fraction.length)
  | _ => none

/-- An operand: hexadecimal with `0x` for every kind; decimal for an integer, with a leading `-` for s64 only; a decimal
literal with a trailing `f` for f64 only (R80). -/
def readOperand (kind : OperandKind) : List Char → Option Word
  | '0' :: 'x' :: cs => (readDigits 16 cs).bind wordIfFits
  | cs =>
    match kind with
    | .f64 => readDecimalFloat cs
    | .u64 => (readDigits 10 cs).bind wordIfFits
    | .s64 =>
      (readDigits 10 (splitSign cs).2).bind fun n =>
        if (splitSign cs).1 then (if n ≤ 2 ^ 63 then some (BitVec.ofInt 64 (-(n : Int))) else none)
        else (if n < 2 ^ 63 then some (BitVec.ofNat 64 n) else none)

/-- Without blanks at either end. -/
def trim (cs : List Char) : List Char :=
  ((cs.dropWhile fun c => c == ' ').reverse.dropWhile fun c => c == ' ').reverse

/-- The fields between commas, `field` being the start of the first. -/
def splitCommas (field : List Char) : List Char → List (List Char)
  | [] => [trim field]
  | ',' :: cs => trim field :: splitCommas [] cs
  | c :: cs => splitCommas (field ++ [c]) cs

/-- The operand fields of a line, none if nothing follows the mnemonic. -/
def operandFields (cs : List Char) : List (List Char) :=
  if (trim cs).isEmpty then [] else splitCommas [] cs

/-- The operands of a command or pseudo-instruction, all of one kind. -/
def readOperands (kind : OperandKind) : List (List Char) → Option (List Word)
  | [] => some []
  | f :: fs =>
    match readOperand kind f, readOperands kind fs with
    | some w, some ws => some (w :: ws)
    | _, _ => none

/-- The packet of a command line: omitted operands are encoded as 0 (R80). -/
def commandPacket (op : BitVec 8) (kindA kindB : OperandKind) : List (List Char) → Option Packet
  | [] => some (mkPacket op 0 0)
  | [a] => (readOperand kindA a).map fun a => mkPacket op a 0
  | [a, b] =>
    match readOperand kindA a, readOperand kindB b with
    | some a, some b => some (mkPacket op a b)
    | _, _ => none
  | _ => none

/-- The commands of a pseudo-instruction line, if the mnemonic is one (R81). -/
def pseudoCommands (mnemonic : List Char) (fields : List (List Char)) : Option (List Instr) :=
  if mnemonic = ['S', 'E', 'E', 'D'] then
    match readOperands .u64 fields with
    | some [s] => some (expandSeed s)
    | _ => none
  else if mnemonic = ['L', 'O', 'A', 'D', 'E'] then (readOperands .u64 fields).map expandLoadE
  else if mnemonic = ['L', 'O', 'A', 'D', 'W'] then (readOperands .f64 fields).map expandLoadW
  else if mnemonic = ['D', 'U', 'M', 'P', 'O'] then
    match readOperands .u64 fields with
    | some [k] => some (expandDumpO k.toNat)
    | _ => none
  else if mnemonic = ['D', 'U', 'M', 'P', 'E'] then
    match readOperands .u64 fields with
    | some [k] => some (expandDumpE k.toNat)
    | _ => none
  else none

/-- The packets of a line: `MNEMONIC`, `MNEMONIC a` or `MNEMONIC a, b`, with `#` starting a comment to its end; none if the
line is not in the notation, and no packet for a line with nothing but a comment (R80, R81). -/
def assembleLine (line : List Char) : Option (List Packet) :=
  let code := trim (line.takeWhile fun c => c != '#')
  let mnemonic := code.takeWhile fun c => c != ' '
  let fields := operandFields (code.dropWhile fun c => c != ' ')
  if code.isEmpty then some []
  else
    match mnemonicTable.find? (fun row => row.1 == mnemonic) with
    | some (_, op, kindA, kindB) => (commandPacket op kindA kindB fields).map fun p => [p]
    | none => (pseudoCommands mnemonic fields).map fun is => is.map encode

/-- The packets of a command stream, line by line. -/
def assemble : List (List Char) → Option (List Packet)
  | [] => some []
  | line :: lines =>
    match assembleLine line, assemble lines with
    | some ps, some qs => some (ps ++ qs)
    | _, _ => none

end Sys2Proof.Machine
end

