-- ==== Sys2Proof/Safety.lean ====
section
/-! DEFINITION. The terms that claims about the unit use: the invariant of its states, what a command leaves unchanged, and
the tables and formulas of the spec written over natural numbers and integers, apart from the machine's own definitions. -/

namespace Sys2Proof.Machine

/-- The invariant of the unit's states: `1 ≤ N_MAX` (00_scope.md R7), each length is in `0 .. N_MAX` (10_state.md R29), the
buffers are in their canonical form, and a fault response carries value 0 (30_encoding.md R73). -/
structure Inv (s : State) : Prop where
  capacity : 1 ≤ s.nMax.toNat
  len : s.len.toNat ≤ s.nMax.toNat
  wlen : s.wlen.toNat ≤ s.nMax.toNat
  olen : s.olen.toNat ≤ s.nMax.toNat
  mem : Memory.wf s.nMax.toNat s.mem = true
  response : ∀ r, s.response = some r → r.status ≠ .ok → r.value = 0

/-! ### What stays as it was -/

/-- The instance's constants, the model's own field, and the host's remaining commands are as before. -/
structure SameInstance (s t : State) : Prop where
  mult : t.mult = s.mult
  incr : t.incr = s.incr
  nMax : t.nMax = s.nMax
  powerUp : t.powerUp = s.powerUp
  commands : t.commands = s.commands

/-- The three length registers are as before. -/
structure SameLengths (s t : State) : Prop where
  len : t.len = s.len
  wlen : t.wlen = s.wlen
  olen : t.olen = s.olen

/-- Every word of the buffer reads as before. -/
def SameBuffer (sp : Space) (s t : State) : Prop := ∀ i, memRead sp i t = memRead sp i s

/-- Every word of every buffer reads as before. -/
def SameBuffers (s t : State) : Prop := ∀ sp, SameBuffer sp s t

/-- Nothing but `STATE` and the response may differ. -/
structure OnlyStateMoves (s t : State) : Prop where
  constants : SameInstance s t
  lengths : SameLengths s t
  buffers : SameBuffers s t

/-- Nothing but the response may differ. -/
structure NothingMoves (s t : State) : Prop extends OnlyStateMoves s t where
  lcgState : t.lcgState = s.lcgState

/-- The response is `OK` with value `v`. -/
def RespondsOk (v : Word) (t : State) : Prop := t.response = some ⟨.ok, v⟩

/-- The response is the fault `f` with value 0. -/
def RespondsFault (f : Status) (t : State) : Prop := t.response = some ⟨f, 0⟩

/-- The constants have the source's default values (00_scope.md R7). -/
def DefaultConstants (s : State) : Prop :=
  s.mult = 0x5851F42D4C957F2D#64 ∧ s.incr = 0x14057B7EF767814F#64

/-- The command, executed in `s`, answers `OK` with value `v`. -/
def Answers (i : Instr) (s : State) (v : Word) : Prop := ∃ t, exec i s = .next t ∧ RespondsOk v t

/-- The command, executed in `s`, faults with `f`, and nothing but the response differs from `s` (60_exceptions.md R262). -/
def FaultsWith (i : Instr) (s : State) (f : Status) : Prop := ∃ t, exec i s = .next t ∧ RespondsFault f t ∧ NothingMoves s t

/-- The state the spec's worked examples start from: `STATE` after `INIT 42` with the default constants. -/
def AtS42 (s : State) : Prop := s.lcgState = 0x977AFD8015414A94#64 ∧ DefaultConstants s

/-! ### The spec's formulas -/

/-- The successor of `STATE`, over natural numbers (40_lcg_state_advance.md R100). -/
def successorFormula (s : State) (x : Nat) : Nat := (x * s.mult.toNat + s.incr.toNat) % 2 ^ 64

/-- `STATE` after `k` draws from `x` (40_lcg_state_advance.md R107). -/
def afterDraws (s : State) : Nat → Nat → Nat
  | 0, x => x
  | k + 1, x => afterDraws s k (successorFormula s x)

/-- The output made from the pre-advance state `x`, over natural numbers (41_output_permutation.md R111 to R113). -/
def outputFormula (x : Nat) : Nat :=
  let count := x >>> 59
  let y := ((x ^^^ (x >>> 18)) >>> 27) % 2 ^ 32
  ((y >>> count) ||| (y <<< ((32 - count) % 32))) % 2 ^ 32

/-- The output of the next draw. -/
def nextOutput (s : State) : Nat := outputFormula s.lcgState.toNat

/-- `STATE` holds the successor of what it held: exactly one draw was made (00_scope.md R12). -/
def OneDraw (s t : State) : Prop := t.lcgState.toNat = successorFormula s s.lcgState.toNat

/-- The binary64 base of the next draw (44_float_converter.md R157). -/
def nextBase (s : State) : Word := u32ToUnit (BitVec.ofNat 32 (nextOutput s))

/-- The in-place form of the shift of one permutation step (45_array_shuffle.md R194): `B[t] <- B[t - 1]` for `t = i + j` down
to `i + 1`. -/
def shiftUp (i : Nat) : Nat → List Word → List Word
  | 0, b => b
  | j + 1, b => shiftUp i j (b.set (i + j + 1) (b.getD (i + j) 0))

/-- The in-place form of the permutation loop from step `i`, with `k` draws to make (45_array_shuffle.md R194). -/
def inPlaceLoop : Nat → Nat → List Word → State → List Word × State
  | 0, _, b, s => (b, s)
  | k + 1, i, b, s =>
    let draw := nextIntBound (b.length - i) s
    inPlaceLoop k (i + 1) ((shiftUp i draw.1 b).set i (b.getD (i + draw.1) 0)) draw.2

/-- The in-place form of `Permute` (45_array_shuffle.md R194). -/
def permuteInPlace (b : List Word) (s : State) : List Word × State := inPlaceLoop (b.length - 1) 0 b s

/-- The magnitude from which a real rounds to an infinity, `2^1024 - 2^970`, in units of 2^-1074 (44_float_converter.md
R151). -/
def overflowUnits : Nat := (2 ^ 54 - 1) * 2 ^ 2044

/-- `i` is the position the scan of the weights `ws` returns for `r`: the first whose cumulative sum strictly exceeds `r`, or
the last one if none does (46_weighted_choice.md R223). -/
structure IsChoice (ws : List Word) (r : Word) (i : Nat) : Prop where
  inRange : i < ws.length
  noneBefore : ∀ j, j < i → fgt (total (ws.take (j + 1))) r = false
  exceedsOrLast : fgt (total (ws.take (i + 1))) r = true ∨ i = ws.length - 1

/-- The unit's weights, `WBUF[0 .. WLEN - 1]`. -/
def weightList (s : State) : List Word := (List.range s.wlen.toNat).map fun i => memRead .wbuf i s

/-- The value `r` that a weighted choice draws (46_weighted_choice.md R224). -/
def choiceDraw (s : State) : Word := fmul (nextBase s) (total (weightList s))

/-- The unit's elements, `EBUF[0 .. LEN - 1]`. -/
def elementList (s : State) : List Word := (List.range s.len.toNat).map fun i => memRead .ebuf i s

/-! ### The spec's tables -/

/-- A total that `NextFloatBound` turns away: a zero, an infinity or a NaN (60_exceptions.md R263). -/
abbrev badTotal (t : Word) : Prop := f64IsZero t = true ∨ f64IsInf t = true ∨ f64IsNaN t = true

/-- +∞ (44_float_converter.md R150). -/
def plusInfinity : Word := 0x7FF0000000000000#64

/-- The status of the response to a command, from the causes and the priority of 60_exceptions.md R261 and R263 to R266. -/
def expectedStatus (s : State) : Instr → Status
  | .init _ => .ok
  | .nextu32 => .ok
  | .nextint0 => .ok
  | .nextint1 bound => if bound.toInt = 0 then .invalidRange else .ok
  | .nextint2 min max => if max.toInt ≤ min.toInt then .invalidRange else .ok
  | .nextflt0 => .ok
  | .nextflt1 bound => if badTotal bound then .invalidRange else .ok
  | .nextflt2 min max =>
    if f64Finite min = false ∨ f64Finite max = false then .invalidRange
    else if ¬ f64Val min < f64Val max then .invalidRange
    else if fsub max min = plusInfinity then .invalidRange else .ok
  | .perm => .ok
  | .permn n => if s.nMax.toNat < n.toNat then .badIndex else .ok
  | .shuf => .ok
  | .wchi => if s.wlen.toNat = 0 then .emptyInput else if badTotal (total (weights s)) then .invalidRange else .ok
  | .wche =>
    if s.wlen.toNat = 0 then .emptyInput
    else if s.len.toNat ≠ s.wlen.toNat then .lengthMismatch
    else if badTotal (total (weights s)) then .invalidRange else .ok
  | .wre index _ => if s.nMax.toNat ≤ index.toNat then .badIndex else .ok
  | .rde index => if s.nMax.toNat ≤ index.toNat then .badIndex else .ok
  | .wrw index _ => if s.nMax.toNat ≤ index.toNat then .badIndex else .ok
  | .rdw index => if s.nMax.toNat ≤ index.toNat then .badIndex else .ok
  | .rdo index => if s.nMax.toNat ≤ index.toNat then .badIndex else .ok
  | .setlen n => if s.nMax.toNat < n.toNat then .badIndex else .ok
  | .setwlen n => if s.nMax.toNat < n.toNat then .badIndex else .ok
  | .getlen => .ok
  | .getwlen => .ok
  | .getolen => .ok

/-- The draws of a command that does not fault (70_reset_and_hazards.md R304; 30_encoding.md R75). -/
def drawCount (s : State) : Instr → Nat
  | .init _ => 1
  | .nextu32 => 1
  | .nextint0 => 1
  | .nextint1 _ => 1
  | .nextint2 _ _ => 1
  | .nextflt0 => 1
  | .nextflt1 _ => 1
  | .nextflt2 _ _ => 1
  | .perm => s.len.toNat - 1
  | .permn n => n.toNat - 1
  | .shuf => s.len.toNat - 1
  | .wchi => 1
  | .wche => 1
  | .wre _ _ => 0
  | .rde _ => 0
  | .wrw _ _ => 0
  | .rdw _ => 0
  | .rdo _ => 0
  | .setlen _ => 0
  | .setwlen _ => 0
  | .getlen => 0
  | .getwlen => 0
  | .getolen => 0

/-- The value `STATE` holds when a command's draws begin: `INIT` first overwrites it from the seed (R304; 42_seeding.md
R125). -/
def drawsStartFrom (s : State) : Instr → Nat
  | .init seed => (seed.toNat + s.incr.toNat) % 2 ^ 64
  | _ => s.lcgState.toNat

/-- The opcodes whose command uses operand `a` (30_encoding.md R75). -/
def opcodesUsingA : List (BitVec 8) :=
  [0x01#8, 0x21#8, 0x22#8, 0x31#8, 0x32#8, 0x41#8, 0x60#8, 0x61#8, 0x62#8, 0x63#8, 0x64#8, 0x68#8, 0x69#8]

/-- The opcodes whose command uses operand `b` (30_encoding.md R75). -/
def opcodesUsingB : List (BitVec 8) := [0x22#8, 0x32#8, 0x60#8, 0x62#8]

/-- The words of `EBUF` that a command may write (20_memory.md R51). -/
def writesEbuf (i : Instr) : Prop := i = .shuf ∨ ∃ index word, i = .wre index word

/-- The commands that may write word `k` of `EBUF`: `SHUF`, and `WRE` at that index (20_memory.md R51). -/
def writesEbufWord (k : Nat) (i : Instr) : Prop := i = .shuf ∨ ∃ index word, i = .wre index word ∧ index.toNat = k

/-- The commands that may write a word of `WBUF` (20_memory.md R51). -/
def writesWbuf (i : Instr) : Prop := ∃ index word, i = .wrw index word

/-- The commands that may write word `k` of `WBUF`: `WRW` at that index (20_memory.md R51). -/
def writesWbufWord (k : Nat) (i : Instr) : Prop := ∃ index word, i = .wrw index word ∧ index.toNat = k

/-- The commands that may write a word of `OBUF`, and `OLEN` (20_memory.md R51; 10_state.md R29). -/
def writesObuf (i : Instr) : Prop := i = .perm ∨ ∃ n, i = .permn n

end Sys2Proof.Machine
end

