-- ==== Sys2Proof/Certificates/Slice0/Obligations.lean ====
section
/-! DEFINITION. The statements about the unit that are to be proved. Each docstring names the rule of spec/ it formalises. -/

open Sys2Proof Sys2Proof.Machine

/-! ### Packets -/

/-- Decoding the encoding of a well-formed command gives it back, and it is the only packet that decodes to the command and
has 0 in the operand fields the command ignores (30_encoding.md R71, R72, R75, R80). -/
def Obligations.CommandsSurviveEncoding : Prop :=
  ∀ i : Instr, i.wf = true →
    decode (encode i) = .command i ∧
    ∀ p : Packet, decode p = .command i →
      (packetOp p ∉ opcodesUsingA → packetA p = 0) → (packetOp p ∉ opcodesUsingB → packetB p = 0) → p = encode i

/-- An operand field that the opcode's command does not use is ignored, whatever it holds, in decoding and in the step that
executes the packet (30_encoding.md R72). -/
def Obligations.UnusedOperandsAreIgnored : Prop :=
  ∀ (op : BitVec 8) (a b a' b' : Word),
    (op ∈ opcodesUsingA → a = a') → (op ∈ opcodesUsingB → b = b') → op ∈ legalOpcodes →
    decode (mkPacket op a b) = decode (mkPacket op a' b') ∧
    ∀ (s : State) (rest : List Packet),
      step { s with commands := mkPacket op a b :: rest } = step { s with commands := mkPacket op a' b' :: rest }

/-- 30_encoding.md R78: a packet whose opcode is not in the map, one of 233, 00 and FF among them, faults with `BadCommand`,
status 4, changes no state and makes no draw. -/
def Obligations.ReservedOpcodesFaultWithBadCommand : Prop :=
  ((List.range 256).filter fun n => !legalOpcodes.contains (BitVec.ofNat 8 n)).length = 233 ∧
  0x00#8 ∉ legalOpcodes ∧ 0xFF#8 ∉ legalOpcodes ∧ statusCode .badCommand = 4#8 ∧
  ∀ p : Packet, packetOp p ∉ legalOpcodes →
    decode p = .reserved (packetOp p) ∧
    ∀ (s : State) (rest : List Packet), s.commands = p :: rest →
      ∃ t, step s = .next t ∧ RespondsFault .badCommand t ∧ NothingMoves { s with commands := rest } t

/-- The worked encodings of 30_encoding.md R82, read and written. -/
def Obligations.WorkedPacketsDecodeAndEncode : Prop :=
  decode 0x01000000000000002A0000000000000000#136 = .command (.init 42#64) ∧
  decode 0x1000000000000000000000000000000000#136 = .command .nextu32 ∧
  decode 0x22FFFFFFFFFFFFFFFB0000000000000005#136 = .command (.nextint2 (BitVec.ofInt 64 (-5)) 5#64) ∧
  decode 0x3140240000000000000000000000000000#136 = .command (.nextflt1 0x4024000000000000#64) ∧
  decode 0x6000000000000000030000000000001234#136 = .command (.wre 3#64 0x1234#64) ∧
  encode (.init 42#64) = 0x01000000000000002A0000000000000000#136 ∧
  encode .nextu32 = 0x1000000000000000000000000000000000#136 ∧
  encode (.nextint2 (BitVec.ofInt 64 (-5)) 5#64) = 0x22FFFFFFFFFFFFFFFB0000000000000005#136 ∧
  encode (.nextflt1 0x4024000000000000#64) = 0x3140240000000000000000000000000000#136 ∧
  encode (.wre 3#64 0x1234#64) = 0x6000000000000000030000000000001234#136 ∧
  responsePacket ⟨.ok, 6#64⟩ = 0x000000000000000006#72 ∧
  responsePacket ⟨.invalidRange, 0#64⟩ = 0x010000000000000000#72

/-- The response packet has the status code in bits 71:64 and the value in bits 63:0 (30_encoding.md R73), the codes are those
of 60_exceptions.md R261, and no code above 5 is produced. -/
def Obligations.ResponsePacketHoldsStatusAndValue : Prop :=
  ∀ r : Response,
    (responsePacket r).toNat / 2 ^ 64 = (statusCode r.status).toNat ∧
    (responsePacket r).toNat % 2 ^ 64 = r.value.toNat ∧
    (statusCode r.status).toNat ≤ 5 ∧
    (r.status = .ok ↔ statusCode r.status = 0#8) ∧ (r.status = .invalidRange ↔ statusCode r.status = 1#8) ∧
    (r.status = .lengthMismatch ↔ statusCode r.status = 2#8) ∧ (r.status = .emptyInput ↔ statusCode r.status = 3#8) ∧
    (r.status = .badCommand ↔ statusCode r.status = 4#8) ∧ (r.status = .badIndex ↔ statusCode r.status = 5#8)

/-- Lines of the assembler notation and their packets (30_encoding.md R80, R81): integers in decimal, with a minus sign, and
in hexadecimal, float literals, comments, omitted operands, and pseudo-instructions. The last line, a signed operand that
`NEXTU32` ignores, gives none by THE MODEL'S CHOICE (log entry 16): R80 does not say how such an operand may be written. -/
def Obligations.AssemblerLinesGiveTheirPackets : Prop :=
  assembleLine "NEXTINT2 -5, 5".toList = some [0x22FFFFFFFFFFFFFFFB0000000000000005#136] ∧
  assembleLine "NEXTFLT1 10.0f   # a bound".toList = some [0x3140240000000000000000000000000000#136] ∧
  assembleLine "WRE 3, 0x1234".toList = some [0x6000000000000000030000000000001234#136] ∧
  assembleLine "LOADE 10, 20".toList =
    some [0x600000000000000000000000000000000A#136, 0x6000000000000000010000000000000014#136,
      0x6800000000000000020000000000000000#136] ∧
  assembleLine "LOADE".toList = some [0x6800000000000000000000000000000000#136] ∧
  assembleLine "LOADW -0.5f".toList =
    some [0x620000000000000000BFE0000000000000#136, 0x6900000000000000010000000000000000#136] ∧
  assembleLine "SEED 42".toList = some [0x01000000000000002A0000000000000000#136] ∧
  assembleLine "DUMPO 2".toList =
    some [0x6400000000000000000000000000000000#136, 0x6400000000000000010000000000000000#136] ∧
  assembleLine "DUMPE 1".toList = some [0x6100000000000000000000000000000000#136] ∧
  assembleLine "NEXTU32 -5".toList = none

/-! ### The step -/

/-- When the packet the host issues next decodes to a command, a step is the execution of that command in the state from
which the packet has been taken; and `withFetchWord` presents a packet so (20_memory.md R58, R61). -/
def Obligations.StepExecutesTheDecodedCommand : Prop :=
  (∀ (s : State) (p : Packet) (rest : List Packet) (i : Instr), s.commands = p :: rest → decode p = .command i →
    step s = exec i { s with commands := rest }) ∧
  ∀ (s : State) (i : Instr), i.wf = true →
    step (s.withFetchWord 136 (encode i).toNat) = exec i { s with commands := s.commands.tail }

/-- THE MODEL'S CHOICE (log entry 2): with no command presented a step makes no response and changes nothing else. -/
def Obligations.StepWithoutCommandIsIdle : Prop :=
  ∀ s : State, s.commands = [] → ∃ t, step s = .next t ∧ t.response = none ∧ NothingMoves s t

/-- A step is a total function and every command, legal or not, produces exactly one response, whose value is 0 when the
status is not `OK` (00_scope.md R15; 30_encoding.md R73; 60_exceptions.md R261). -/
def Obligations.EveryPacketIsAnsweredOnce : Prop :=
  ∀ (s : State) (p : Packet) (rest : List Packet), s.commands = p :: rest →
    ∃ t r, step s = .next t ∧ t.response = some r ∧ t.commands = rest ∧ (r.status ≠ .ok → r.value = 0)

/-- No command reads the response port: what a command does and answers does not depend on the outcome of an earlier one
(10_state.md R21, R23). -/
def Obligations.PastOutcomesAreNotKept : Prop :=
  ∀ (i : Instr) (s : State) (r : Option Response), exec i { s with response := r } = exec i s

/-! ### The generator -/

/-- 40_lcg_state_advance.md R100, R101 and R105: `Lcg` is the exact product and sum reduced modulo 2^64, in each of its
equivalent forms, whether the words are read as unsigned or as two's complement; with the corner cases and examples. -/
def Obligations.LcgIsExactMultiplyAddModulo : Prop :=
  (∀ s m c : Word,
    (lcg s m c).toNat = (s.toNat * m.toNat + c.toNat) % 2 ^ 64 ∧
    (lcg s m c).toNat = ((s.toNat * m.toNat) % 2 ^ 64 + c.toNat) % 2 ^ 64 ∧
    lcg s m c = (s.setWidth 128 * m.setWidth 128).setWidth 64 + c ∧
    lcg s m c = BitVec.ofInt 64 (s.toInt * m.toInt + c.toInt)) ∧
  (∀ s m c : Word, lcg 0 m c = c ∧ lcg s 0 c = c ∧ lcg s 1 0 = s) ∧
  lcg 1 6364136223846793005#64 1442695040888963407#64 = 0x6C576FAC43FD007C#64 ∧
  lcg 0xFFFFFFFFFFFFFFFF#64 6364136223846793005#64 1442695040888963407#64 = 0xBBB38751AAD20222#64 ∧
  lcg 0 6364136223846793005#64 1442695040888963407#64 = 0x14057B7EF767814F#64 ∧
  lcg 0x8000000000000000#64 6364136223846793005#64 1442695040888963407#64 = 0x94057B7EF767814F#64 ∧
  lcg 0x0123456789ABCDEF#64 6364136223846793005#64 1442695040888963407#64 = 0x2CE32D2335DF4552#64

/-- 41_output_permutation.md R112: `ror32` as the formula, and bit by bit. -/
def Obligations.RotateRightMovesEveryBit : Prop :=
  (∀ (y : Word32) (k : Nat), k < 32 →
    (ror32 y k).toNat = ((y.toNat >>> k) ||| (y.toNat <<< ((32 - k) % 32))) % 2 ^ 32 ∧
    ∀ i, i < 32 → (ror32 y k).getLsbD i = y.getLsbD ((i + k) % 32)) ∧
  (∀ y : Word32, ror32 y 0 = y) ∧
  ror32 0x00004000#32 1 = 0x00002000#32 ∧ ror32 0xFFF80000#32 31 = 0xFFF00001#32

/-- 41_output_permutation.md R111, R113 and R114: the rotation count, the xor-shift bit by bit, the output as the formula over
natural numbers with its one truncation, and that bits 26:0 never reach the output. -/
def Obligations.OutputPermutationFollowsItsFormula : Prop :=
  ∀ x : Word,
    rotationCount x = x.toNat / 2 ^ 59 ∧ rotationCount x ≤ 31 ∧
    (∀ i, i ≤ 18 → (xorShift x).getLsbD i = (x.getLsbD (27 + i) ^^ x.getLsbD (45 + i))) ∧
    (∀ i, 19 ≤ i → i ≤ 31 → (xorShift x).getLsbD i = x.getLsbD (27 + i)) ∧
    (xshRr x).toNat = outputFormula x.toNat ∧
    ∀ z : Word, z.toNat / 2 ^ 27 = x.toNat / 2 ^ 27 → xshRr z = xshRr x

/-- 41_output_permutation.md R116: `NEXTU32` makes one draw and responds its zero-extended output, made from the state before
the draw; it cannot fault and changes nothing else. -/
def Obligations.NextU32RespondsTheOutput : Prop :=
  (∀ a b : Word, decode (mkPacket 0x10#8 a b) = .command .nextu32) ∧
  ∀ s : State,
    (∃ t v, exec .nextu32 s = .next t ∧ RespondsOk v t ∧ v.toNat = nextOutput s ∧ v.toNat < 2 ^ 32 ∧ OneDraw s t ∧
      OnlyStateMoves s t ∧ (s.lcgState = 0 → v = 0 ∧ t.lcgState = s.incr) ∧
      (AtS42 s → v = 0x00000000C2F57BD6#64 ∧ t.lcgState = 0xBAA582B670050953#64))

/-- 42_seeding.md R125: `INIT` puts `seed + INCR` in `STATE` and makes one draw. -/
def Obligations.InitSeedsTheState : Prop :=
  (∀ a b : Word, decode (mkPacket 0x01#8 a b) = .command (.init a)) ∧
  ∀ (seed : Word) (s : State),
    ∃ t, exec (.init seed) s = .next t ∧ RespondsOk 0 t ∧ OnlyStateMoves s t ∧
      t.lcgState.toNat = successorFormula s ((seed.toNat + s.incr.toNat) % 2 ^ 64) ∧
      (DefaultConstants s →
        (seed = 42#64 → t.lcgState = 0x977AFD8015414A94#64) ∧ (seed = 0#64 → t.lcgState = 0x1A08EE1184BA6D32#64) ∧
        (seed = 0xFFFFFFFFFFFFFFFF#64 → t.lcgState = 0xC1B6F9E43824EE05#64))

/-- `INIT` does not read the old `STATE` (42_seeding.md R126), and with an odd multiplier different seeds leave different
states (R128). -/
def Obligations.InitIsInjectiveAndForgetful : Prop :=
  ∀ (seed seed' : Word) (s s' t t' : State), s'.mult = s.mult → s'.incr = s.incr →
    exec (.init seed) s = .next t → exec (.init seed') s' = .next t' →
    (seed = seed' → t.lcgState = t'.lcgState) ∧
    (s.mult.toNat % 2 = 1 → t.lcgState = t'.lcgState → seed = seed')

/-! ### The integer sampler -/

/-- 43_uniform_sampler.md R131: `NEXTINT0` responds the output widened with zeros, the same response as `NEXTU32`. -/
def Obligations.NextInt0RespondsTheWholeOutput : Prop :=
  (∀ a b : Word, decode (mkPacket 0x20#8 a b) = .command .nextint0) ∧
  ∀ s : State,
    ∃ t v, exec .nextint0 s = .next t ∧ RespondsOk v t ∧ v.toInt = (nextOutput s : Int) ∧ 0 ≤ v.toInt ∧ v.toInt < 2 ^ 32 ∧
      OneDraw s t ∧ OnlyStateMoves s t ∧ Answers .nextu32 s v ∧ (AtS42 s → v = 0x00000000C2F57BD6#64)

/-- 43_uniform_sampler.md R132: `NEXTINT1`, for a zero, a positive and a negative bound. -/
def Obligations.NextInt1ReducesByTheBound : Prop :=
  (∀ a b : Word, decode (mkPacket 0x21#8 a b) = .command (.nextint1 a)) ∧
  (∀ (bound : Word) (s : State), bound.toInt = 0 → FaultsWith (.nextint1 bound) s .invalidRange) ∧
  (∀ (bound : Word) (s : State), bound.toInt ≠ 0 →
    ∃ t v, exec (.nextint1 bound) s = .next t ∧ RespondsOk v t ∧ OneDraw s t ∧ OnlyStateMoves s t ∧
      (0 < bound.toInt → v.toInt = (nextOutput s : Int) % bound.toInt ∧ 0 ≤ v.toInt ∧ v.toInt < bound.toInt ∧
        v.toInt < 2 ^ 32) ∧
      (bound.toInt < 0 → v.toInt = (nextOutput s : Int) % (-bound.toInt) + bound.toInt ∧ bound.toInt ≤ v.toInt ∧
        v.toInt < 0 ∧ v.toInt - bound.toInt < 2 ^ 32)) ∧
  ∀ s : State, AtS42 s →
    Answers (.nextint1 10#64) s 6#64 ∧ Answers (.nextint1 1#64) s 0#64 ∧
    Answers (.nextint1 (BitVec.ofInt 64 (-10))) s 0xFFFFFFFFFFFFFFFC#64 ∧
    Answers (.nextint1 (BitVec.ofInt 64 (-1))) s (BitVec.ofInt 64 (-1)) ∧
    Answers (.nextint1 0x100000000#64) s 3270867926#64 ∧
    Answers (.nextint1 0x8000000000000000#64) s 0x80000000C2F57BD6#64

/-- 43_uniform_sampler.md R133: `NEXTINT2`, for `max ≤ min` and for `min < max`; the span `d` is the 64-bit difference of the
operands read unsigned, in `1 .. 2^64 - 1`. -/
def Obligations.NextInt2ReducesIntoTheRange : Prop :=
  (∀ a b : Word, decode (mkPacket 0x22#8 a b) = .command (.nextint2 a b)) ∧
  (∀ (min max : Word) (s : State), max.toInt ≤ min.toInt → FaultsWith (.nextint2 min max) s .invalidRange) ∧
  (∀ (min max : Word) (s : State), min.toInt < max.toInt →
    ∃ t v, exec (.nextint2 min max) s = .next t ∧ RespondsOk v t ∧ OneDraw s t ∧ OnlyStateMoves s t ∧
      v.toInt = (nextOutput s : Int) % (max.toInt - min.toInt) + min.toInt ∧ min.toInt ≤ v.toInt ∧ v.toInt < max.toInt ∧
      ((max.toNat : Int) - min.toNat) % 2 ^ 64 = max.toInt - min.toInt ∧
      ((max - min).toNat : Int) = max.toInt - min.toInt ∧
      v = BitVec.ofNat 64 (nextOutput s % (max - min).toNat) + min ∧
      (max.toInt = min.toInt + 1 → v = min) ∧
      (min.toInt = -2 ^ 63 → max.toInt = 2 ^ 63 - 1 →
        max.toInt - min.toInt = 2 ^ 64 - 1 ∧ v.toInt = (nextOutput s : Int) - 2 ^ 63)) ∧
  ∀ s : State, AtS42 s →
    Answers (.nextint2 0#64 10#64) s 6#64 ∧ Answers (.nextint2 5#64 15#64) s 11#64 ∧
    Answers (.nextint2 (BitVec.ofInt 64 (-5)) 5#64) s 1#64 ∧
    Answers (.nextint2 (BitVec.ofInt 64 (-10)) (BitVec.ofInt 64 (-3))) s 0xFFFFFFFFFFFFFFFA#64 ∧
    Answers (.nextint2 7#64 8#64) s 7#64 ∧ Answers (.nextint2 (BitVec.ofInt 64 (-3)) 0x10000000000#64) s 3270867923#64

/-- 43_uniform_sampler.md R138: how many of the 2^32 outputs give each residue, for a divisor up to 2^32 and above. -/
def Obligations.ModuloBiasIsAsCounted : Prop :=
  (∀ d r : Nat, 0 < d → d ≤ 2 ^ 32 → r < d →
    (Finset.univ.filter fun u : Fin (2 ^ 32) => reduceBound (BitVec.ofFin u) (d : Int) = (r : Int)).card =
      if r < 2 ^ 32 % d then 2 ^ 32 / d + 1 else 2 ^ 32 / d) ∧
  ∀ (d : Nat) (u : Word32), 2 ^ 32 < d → reduceBound u (d : Int) = (u.toNat : Int)

/-! ### Binary64 -/

/-- Each word is in exactly one of the classes of 44_float_converter.md R150, and the finite values are exactly the reals
`± M × 2^q` with `0 ≤ M < 2^53` and `-1074 ≤ q ≤ 971` (here in units of 2^-1074), the largest being `(2^53 - 1) × 2^971`. -/
def Obligations.FiniteValuesAreExactlyTheDyadics : Prop :=
  (∀ w : Word, (f64Finite w = true ↔ f64IsNaN w = false ∧ f64IsInf w = false) ∧
    ¬ (f64IsNaN w = true ∧ f64IsInf w = true) ∧ (f64IsZero w = true ↔ w = 0#64 ∨ w = 0x8000000000000000#64) ∧
    (f64IsInf w = true ↔ w = 0x7FF0000000000000#64 ∨ w = 0xFFF0000000000000#64) ∧
    w.toNat = signWeight (f64Sign w) + f64Exp w * 2 ^ 52 + f64Frac w) ∧
  (∀ w : Word, f64Finite w = true → ∃ m q, m < 2 ^ 53 ∧ q ≤ 2045 ∧ f64Mag w = m * 2 ^ q) ∧
  (∀ (neg : Bool) (m q : Nat), m < 2 ^ 53 → q ≤ 2045 →
    ∃ w : Word, f64Finite w = true ∧ f64Sign w = neg ∧ f64Mag w = m * 2 ^ q) ∧
  ∀ w : Word, f64Finite w = true → f64Mag w ≤ (2 ^ 53 - 1) * 2 ^ 2045

/-- `RN` of a real `± num / den` (in units of 2^-1074) below the overflow threshold is finite, has the real's sign, and is
nearest: no finite datum is nearer, and where another value is equally near, bit 0 of the result is 0 (44_float_converter.md
R151). -/
def Obligations.RoundingIsToNearestTiesToEven : Prop :=
  ∀ (neg : Bool) (num den : Nat), 0 < den → num < overflowUnits * den →
    f64Finite (roundNearest neg num den) = true ∧ f64Sign (roundNearest neg num den) = neg ∧
    ∀ x : Word, f64Finite x = true →
      |(f64Mag (roundNearest neg num den) : Int) * den - num| ≤ |(f64Mag x : Int) * den - num| ∧
      (|(f64Mag (roundNearest neg num den) : Int) * den - num| = |(f64Mag x : Int) * den - num| →
        f64Mag x ≠ f64Mag (roundNearest neg num den) → (roundNearest neg num den).getLsbD 0 = false)

/-- `RN` gives the infinity with the sign of the real from `2^1024 - 2^970` on, a signed zero for zero, and every finite value
unchanged (44_float_converter.md R151). -/
def Obligations.RoundingOverflowsAndKeepsRepresentable : Prop :=
  (∀ (neg : Bool) (num den : Nat), 0 < den → overflowUnits * den ≤ num →
    f64IsInf (roundNearest neg num den) = true ∧ f64Sign (roundNearest neg num den) = neg) ∧
  (∀ (neg : Bool) (den : Nat), 0 < den →
    f64IsZero (roundNearest neg 0 den) = true ∧ f64Sign (roundNearest neg 0 den) = neg) ∧
  ∀ (w : Word) (den : Nat), f64Finite w = true → 0 < den → roundNearest (f64Sign w) (f64Mag w * den) den = w

/-- Rounding is monotonic (44_float_converter.md R151), for reals on one side of zero that round to finite data. -/
def Obligations.RoundingIsMonotonic : Prop :=
  ∀ (neg : Bool) (n₁ d₁ n₂ d₂ : Nat), 0 < d₁ → 0 < d₂ → n₁ * d₂ ≤ n₂ * d₁ →
    f64Finite (roundNearest neg n₂ d₂) = true →
    f64Finite (roundNearest neg n₁ d₁) = true ∧ f64Mag (roundNearest neg n₁ d₁) ≤ f64Mag (roundNearest neg n₂ d₂)

/-- 44_float_converter.md R152: `fadd`, `fsub` and `fmul` of finite, infinite and NaN operands. -/
def Obligations.ArithmeticRoundsOnceAndSignsZeros : Prop :=
  (∀ x y : Word, f64Finite x = true → f64Finite y = true →
    fmul x y = roundNearest (f64Sign x != f64Sign y) (f64Mag x * f64Mag y) (2 ^ 1074) ∧
    (f64Mag x * f64Mag y = 0 → fmul x y = if f64Sign x = f64Sign y then 0#64 else 0x8000000000000000#64) ∧
    (f64Val x + f64Val y = 0 →
      fadd x y = if x = 0x8000000000000000#64 ∧ y = 0x8000000000000000#64 then 0x8000000000000000#64 else 0#64) ∧
    (0 < f64Val x + f64Val y → fadd x y = roundNearest false (f64Val x + f64Val y).toNat 1) ∧
    (f64Val x + f64Val y < 0 → fadd x y = roundNearest true (-(f64Val x + f64Val y)).toNat 1)) ∧
  (∀ x y : Word, fsub x y = fadd x (y ^^^ 0x8000000000000000#64) ∧
    f64Val (y ^^^ 0x8000000000000000#64) = -f64Val y) ∧
  (∀ x y : Word, f64IsNaN x = true ∨ f64IsNaN y = true →
    f64IsNaN (fadd x y) = true ∧ f64IsNaN (fsub x y) = true ∧ f64IsNaN (fmul x y) = true) ∧
  (∀ x y : Word, f64IsInf x = true → f64Finite y = true → fadd x y = x ∧ fadd y x = x) ∧
  (∀ x y : Word, f64IsInf x = true → f64IsInf y = true →
    (f64Sign x = f64Sign y → fadd x y = x) ∧ (f64Sign x ≠ f64Sign y → f64IsNaN (fadd x y) = true)) ∧
  ∀ x y : Word, f64IsInf x = true → f64IsNaN y = false →
    (f64IsZero y = true → f64IsNaN (fmul x y) = true ∧ f64IsNaN (fmul y x) = true) ∧
    (f64IsZero y = false →
      fmul x y = (if f64Sign x = f64Sign y then 0x7FF0000000000000#64 else 0xFFF0000000000000#64) ∧ fmul y x = fmul x y)

/-- 44_float_converter.md R156: `U32ToUnit(u)` is exactly `u × 2^-32`, positive, zero or normal, below 1, with its low 21
fraction bits zero; with the examples. -/
def Obligations.UnitConversionIsExact : Prop :=
  (∀ u : Word32,
    f64Finite (u32ToUnit u) = true ∧ f64Sign (u32ToUnit u) = false ∧
    f64Mag (u32ToUnit u) * 2 ^ 32 = u.toNat * 2 ^ 1074 ∧ f64Mag (u32ToUnit u) < 2 ^ 1074 ∧
    f64Frac (u32ToUnit u) % 2 ^ 21 = 0 ∧
    (u = 0 → u32ToUnit u = 0) ∧
    (∀ k, 2 ^ k ≤ u.toNat → u.toNat < 2 ^ (k + 1) →
      f64Exp (u32ToUnit u) = 991 + k ∧ f64Frac (u32ToUnit u) = (u.toNat - 2 ^ k) <<< (52 - k))) ∧
  u32ToUnit 1#32 = 0x3DF0000000000000#64 ∧ u32ToUnit 0xFFFFFFFF#32 = 0x3FEFFFFFFFE00000#64 ∧
  u32ToUnit 0x80000000#32 = 0x3FE0000000000000#64 ∧ u32ToUnit 3#32 = 0x3E08000000000000#64 ∧
  u32ToUnit 0xC2F57BD6#32 = 0x3FE85EAF7AC00000#64

/-- 44_float_converter.md R158: the datapath with a fixed exponent gives the same word for every output. -/
def Obligations.FixedExponentDatapathAgrees : Prop :=
  ∀ u : Word32, u32ToUnitByFixedExponent u = u32ToUnit u

/-! ### The float sampler -/

/-- 44_float_converter.md R160: `NEXTFLT0` responds the base, exact, in `[0, 1)`. -/
def Obligations.NextFlt0RespondsTheBase : Prop :=
  (∀ a b : Word, decode (mkPacket 0x30#8 a b) = .command .nextflt0) ∧
  ∀ s : State,
    ∃ t v, exec .nextflt0 s = .next t ∧ RespondsOk v t ∧ v = nextBase s ∧ OneDraw s t ∧ OnlyStateMoves s t ∧
      f64Finite v = true ∧ f64Val v * 2 ^ 32 = nextOutput s * 2 ^ 1074 ∧ 0 ≤ f64Val v ∧ f64Val v < 2 ^ 1074 ∧
      (AtS42 s → v = 0x3FE85EAF7AC00000#64)

/-- 44_float_converter.md R161: `NEXTFLT1`, for bounds that fault and for every other bound, a negative one too; a bound that is
not subnormal is never reached. -/
def Obligations.NextFlt1ScalesTheBase : Prop :=
  (∀ a b : Word, decode (mkPacket 0x31#8 a b) = .command (.nextflt1 a)) ∧
  (∀ (bound : Word) (s : State), f64Finite bound = false ∨ f64IsZero bound = true →
    FaultsWith (.nextflt1 bound) s .invalidRange) ∧
  (∀ (bound : Word) (s : State), f64Finite bound = true → f64IsZero bound = false →
    ∃ t v, exec (.nextflt1 bound) s = .next t ∧ RespondsOk v t ∧ v = fmul (nextBase s) bound ∧ OneDraw s t ∧
      OnlyStateMoves s t ∧ f64Finite v = true ∧ (1 ≤ f64Exp bound → f64Mag v < f64Mag bound) ∧
      (0 < f64Val bound → 0 ≤ f64Val v ∧ f64Val v ≤ f64Val bound) ∧
      (f64Val bound < 0 → f64Val bound ≤ f64Val v ∧ f64Val v ≤ 0 ∧ (nextOutput s = 0 → v = 0x8000000000000000#64))) ∧
  ∀ s : State, AtS42 s →
    Answers (.nextflt1 0x3FF0000000000000#64) s 0x3FE85EAF7AC00000#64 ∧
    Answers (.nextflt1 0x4024000000000000#64) s 0x401E765B59700000#64 ∧
    Answers (.nextflt1 0xC024000000000000#64) s 0xC01E765B59700000#64 ∧
    Answers (.nextflt1 0x3FE0000000000000#64) s 0x3FD85EAF7AC00000#64 ∧
    Answers (.nextflt1 0x7FE1CCF385EBC8A0#64) s 0x7FDB1CC499CC5B35#64 ∧
    Answers (.nextflt1 0x0000000000000001#64) s 0x0000000000000001#64

/-- 44_float_converter.md R162: `NEXTFLT2`, for the ranges that fault and for every other range: one draw, each operation
rounded on its own, a difference that is not zero, and a finite result not below `min`. -/
def Obligations.NextFlt2ScalesAndShiftsTheBase : Prop :=
  (∀ a b : Word, decode (mkPacket 0x32#8 a b) = .command (.nextflt2 a b)) ∧
  (∀ (min max : Word) (s : State),
    f64Finite min = false ∨ f64Finite max = false ∨ ¬ f64Val min < f64Val max ∨ f64Finite (fsub max min) = false →
    FaultsWith (.nextflt2 min max) s .invalidRange) ∧
  (∀ (min max : Word) (s : State), f64Finite min = true → f64Finite max = true → f64Val min < f64Val max →
    f64Finite (fsub max min) = true →
    0 < f64Val (fsub max min) ∧
    ∃ t v, exec (.nextflt2 min max) s = .next t ∧ RespondsOk v t ∧
      v = fadd (fmul (nextBase s) (fsub max min)) min ∧ OneDraw s t ∧ OnlyStateMoves s t ∧
      f64Finite v = true ∧ f64Val min ≤ f64Val v) ∧
  ∀ s : State, AtS42 s →
    Answers (.nextflt2 0#64 0x3FF0000000000000#64) s 0x3FE85EAF7AC00000#64 ∧
    Answers (.nextflt2 0x3FF0000000000000#64 0x4000000000000000#64) s 0x3FFC2F57BD600000#64 ∧
    Answers (.nextflt2 0xBFF0000000000000#64 0x3FF0000000000000#64) s 0x3FE0BD5EF5800000#64 ∧
    Answers (.nextflt2 0x4014000000000000#64 0x402E000000000000#64) s 0x40293B2DACB80000#64 ∧
    Answers (.nextflt2 0x43B0000000000000#64 0x43B0000000000001#64) s 0x43B0000000000001#64 ∧
    FaultsWith (.nextflt2 0x8000000000000000#64 0#64) s .invalidRange ∧
    FaultsWith (.nextflt2 0xFFEE42D130773B76#64 0x7FEE42D130773B76#64) s .invalidRange

/-! ### The array shuffle -/

/-- 45_array_shuffle.md R191: with two words or more `Permute` puts the word at the drawn position first and goes on with the
others in their order and the state after the draw; with one or none it makes no draw. -/
def Obligations.PermuteTakesTheDrawnWordFirst : Prop :=
  (∀ (l : List Word) (s : State), l.length ≤ 1 → permute l s = (l, s)) ∧
  ∀ (l : List Word) (s : State), 2 ≤ l.length →
    ∃ (s' : State) (e : Word), OneDraw s s' ∧ s' = { s with lcgState := s'.lcgState } ∧
      l[nextOutput s % l.length]? = some e ∧
      permute l s =
        (e :: (permute (l.take (nextOutput s % l.length) ++ l.drop (nextOutput s % l.length + 1)) s').1,
          (permute (l.take (nextOutput s % l.length) ++ l.drop (nextOutput s % l.length + 1)) s').2)

/-- 45_array_shuffle.md R199: the result is a rearrangement of the words of the input. -/
def Obligations.PermuteRearrangesItsInput : Prop :=
  ∀ (l : List Word) (s : State), (permute l s).1.Perm l

/-- 45_array_shuffle.md R193: a permutation of `n` words makes `max(n - 1, 0)` draws, and nothing else of the state moves. -/
def Obligations.PermuteMakesOneDrawLessThanWords : Prop :=
  ∀ (l : List Word) (s : State),
    (permute l s).2 = { s with lcgState := (permute l s).2.lcgState } ∧
    (permute l s).2.lcgState.toNat = afterDraws s (l.length - 1) s.lcgState.toNat

/-- 45_array_shuffle.md R194: the in-place form gives the same words and the same state. -/
def Obligations.InPlacePermutationAgrees : Prop :=
  ∀ (l : List Word) (s : State), permuteInPlace l s = permute l s

/-- 45_array_shuffle.md R195: `PERM`. -/
def Obligations.PermFillsTheOutputBuffer : Prop :=
  (∀ a b : Word, decode (mkPacket 0x40#8 a b) = .command .perm) ∧
  ∀ s : State,
    ∃ t, exec .perm s = .next t ∧ RespondsOk (BitVec.ofNat 64 s.len.toNat) t ∧
      (∀ i, i < s.len.toNat → some (memRead .obuf i t) = (permute (elementList s) s).1[i]?) ∧
      (∀ i, s.len.toNat ≤ i → memRead .obuf i t = memRead .obuf i s) ∧
      t.lcgState.toNat = afterDraws s (s.len.toNat - 1) s.lcgState.toNat ∧
      t.olen = s.len ∧ t.len = s.len ∧ t.wlen = s.wlen ∧ SameBuffer .ebuf s t ∧ SameBuffer .wbuf s t ∧ SameInstance s t ∧
      (AtS42 s → elementList s = [10#64, 20#64, 30#64, 40#64, 50#64] →
        (List.range 5).map (fun i => memRead .obuf i t) = [20#64, 30#64, 10#64, 50#64, 40#64] ∧
        t.lcgState = 0xDB7D5D08FBB86588#64)

/-- 45_array_shuffle.md R196: `PERMN`. -/
def Obligations.PermNFillsTheOutputBuffer : Prop :=
  (∀ a b : Word, decode (mkPacket 0x41#8 a b) = .command (.permn a)) ∧
  (∀ (n : Word) (s : State), s.nMax.toNat < n.toNat → FaultsWith (.permn n) s .badIndex) ∧
  ∀ (n : Word) (s : State), n.toNat ≤ s.nMax.toNat →
    ∃ t, exec (.permn n) s = .next t ∧ RespondsOk n t ∧
      (∀ i, i < n.toNat →
        some (memRead .obuf i t) = (permute ((List.range n.toNat).map fun k => BitVec.ofNat 64 k) s).1[i]?) ∧
      (∀ i, n.toNat ≤ i → memRead .obuf i t = memRead .obuf i s) ∧
      t.lcgState.toNat = afterDraws s (n.toNat - 1) s.lcgState.toNat ∧
      t.olen.toNat = n.toNat ∧ t.len = s.len ∧ t.wlen = s.wlen ∧ SameBuffer .ebuf s t ∧ SameBuffer .wbuf s t ∧
      SameInstance s t ∧
      (AtS42 s → n = 8#64 →
        (List.range 8).map (fun i => memRead .obuf i t) = [6#64, 3#64, 4#64, 0#64, 2#64, 5#64, 1#64, 7#64] ∧
        t.lcgState = 0x477E2F612270EC41#64)

/-- 45_array_shuffle.md R197: `SHUF` leaves in `EBUF` what `PERM` would have put in `OBUF`. -/
def Obligations.ShufPermutesInPlace : Prop :=
  (∀ a b : Word, decode (mkPacket 0x42#8 a b) = .command .shuf) ∧
  ∀ s : State,
    ∃ t, exec .shuf s = .next t ∧ RespondsOk (BitVec.ofNat 64 s.len.toNat) t ∧
      (∀ i, i < s.len.toNat → some (memRead .ebuf i t) = (permute (elementList s) s).1[i]?) ∧
      (∀ i, s.len.toNat ≤ i → memRead .ebuf i t = memRead .ebuf i s) ∧
      t.lcgState.toNat = afterDraws s (s.len.toNat - 1) s.lcgState.toNat ∧
      SameLengths s t ∧ SameBuffer .wbuf s t ∧ SameBuffer .obuf s t ∧ SameInstance s t ∧
      (s.len.toNat ≤ 1 → SameBuffer .ebuf s t ∧ t.lcgState = s.lcgState) ∧
      (∀ t', exec .perm s = .next t' →
        t'.lcgState = t.lcgState ∧ ∀ i, i < s.len.toNat → memRead .obuf i t' = memRead .ebuf i t) ∧
      (AtS42 s → elementList s = [10#64, 11#64, 12#64] →
        elementList t = [12#64, 11#64, 10#64] ∧ t.lcgState = 0x356F686D393951E6#64)

/-! ### The weighted choice -/

/-- 46_weighted_choice.md R222: the total adds the weights in index order from +0, and it is finite exactly when every weight
is finite and no partial sum overflowed. -/
def Obligations.TotalAddsInOrderAndKeepsNonFinite : Prop :=
  total [] = 0 ∧ (∀ (ws : List Word) (w : Word), total (ws ++ [w]) = fadd (total ws) w) ∧
  ∀ ws : List Word,
    f64Finite (total ws) = true ↔
      (∀ w ∈ ws, f64Finite w = true) ∧ ∀ k, k ≤ ws.length → f64Finite (total (ws.take k)) = true

/-- 46_weighted_choice.md R223: the scan returns the first position whose cumulative sum strictly exceeds `r`, or the last. -/
def Obligations.ScanReturnsTheFirstExceedingSum : Prop :=
  ∀ (ws : List Word) (r : Word), ws ≠ [] → ∀ i, cumScan r ws = i ↔ IsChoice ws r i

/-- 46_weighted_choice.md R225: `WCHI`, its two faults, and its result otherwise. -/
def Obligations.WchiRespondsTheChosenIndex : Prop :=
  (∀ a b : Word, decode (mkPacket 0x50#8 a b) = .command .wchi) ∧
  (∀ s : State, s.wlen = 0 → FaultsWith .wchi s .emptyInput) ∧
  (∀ s : State, s.wlen ≠ 0 → badTotal (total (weightList s)) → FaultsWith .wchi s .invalidRange) ∧
  (∀ s : State, s.wlen ≠ 0 → ¬ badTotal (total (weightList s)) →
    ∃ t v, exec .wchi s = .next t ∧ RespondsOk v t ∧ IsChoice (weightList s) (choiceDraw s) v.toNat ∧ OneDraw s t ∧
      OnlyStateMoves s t) ∧
  ∀ s : State, AtS42 s →
    (weightList s = [0x3FF0000000000000#64, 0x4000000000000000#64, 0x4008000000000000#64] → Answers .wchi s 2#64) ∧
    (weightList s = [0x4014000000000000#64] → Answers .wchi s 0#64) ∧
    (weightList s = [0x3FB999999999999A#64, 0x3FC999999999999A#64, 0x3FD3333333333333#64] → Answers .wchi s 2#64) ∧
    (weightList s = [0#64, 0#64] → FaultsWith .wchi s .invalidRange) ∧
    (weightList s = [0x7FE1CCF385EBC8A0#64, 0x7FE1CCF385EBC8A0#64] → FaultsWith .wchi s .invalidRange)

/-- 46_weighted_choice.md R226: `WCHE`, its three faults in their order, and its result otherwise, a word of `items`. -/
def Obligations.WcheRespondsTheChosenElement : Prop :=
  (∀ a b : Word, decode (mkPacket 0x51#8 a b) = .command .wche) ∧
  (∀ s : State, s.wlen = 0 → FaultsWith .wche s .emptyInput) ∧
  (∀ s : State, s.wlen ≠ 0 → s.len ≠ s.wlen → FaultsWith .wche s .lengthMismatch) ∧
  (∀ s : State, s.wlen ≠ 0 → s.len = s.wlen → badTotal (total (weightList s)) → FaultsWith .wche s .invalidRange) ∧
  (∀ s : State, s.wlen ≠ 0 → s.len = s.wlen → ¬ badTotal (total (weightList s)) →
    ∃ t i, exec .wche s = .next t ∧ RespondsOk (memRead .ebuf i s) t ∧ IsChoice (weightList s) (choiceDraw s) i ∧
      i < s.len.toNat ∧ OneDraw s t ∧ OnlyStateMoves s t) ∧
  ∀ s : State, AtS42 s →
    weightList s = [0x3FF0000000000000#64, 0x4000000000000000#64, 0x4008000000000000#64] →
    elementList s = [0xA#64, 0xB#64, 0xC#64] → Answers .wche s 0xC#64

/-- 46_weighted_choice.md R229: for finite weights that are not negative (`-0` counts among them) and a normal total, the drawn
`r` is strictly below the total, so the fallback is never used; it is used when `r` rounds back to the total, as in the two
examples. -/
def Obligations.FallbackIsNotReachedForNormalTotals : Prop :=
  (∀ (ws : List Word) (u : Word32), (∀ w ∈ ws, f64Finite w = true ∧ 0 ≤ f64Val w) → f64Finite (total ws) = true →
    (1 ≤ f64Exp (total ws) →
      f64Val (fmul (u32ToUnit u) (total ws)) < f64Val (total ws) ∧
      (scanFrom (fmul (u32ToUnit u) (total ws)) 0 0 ws).isSome = true) ∧
    (fmul (u32ToUnit u) (total ws) = total ws → scanFrom (fmul (u32ToUnit u) (total ws)) 0 0 ws = none)) ∧
  ∀ s : State, AtS42 s →
    (weightList s = [1#64] → choiceDraw s = 1#64 ∧ scanFrom (choiceDraw s) 0 0 (weightList s) = none ∧ Answers .wchi s 0#64) ∧
    (weightList s = [1#64, 1#64] →
      choiceDraw s = 2#64 ∧ scanFrom (choiceDraw s) 0 0 (weightList s) = none ∧ Answers .wchi s 1#64)

/-! ### Buffer access -/

/-- 47_buffer_access.md R241 and R243, by R240: `WRE` and `WRW` write one whole word at a valid index and touch nothing at an
index of `N_MAX` or above, compared on 64 bits. -/
def Obligations.HostWritesStoreOneWord : Prop :=
  (∀ a b : Word, decode (mkPacket 0x60#8 a b) = .command (.wre a b) ∧ decode (mkPacket 0x62#8 a b) = .command (.wrw a b)) ∧
  (∀ (index word : Word) (s : State), s.nMax.toNat ≤ index.toNat →
    FaultsWith (.wre index word) s .badIndex ∧ FaultsWith (.wrw index word) s .badIndex) ∧
  ∀ (index word : Word) (s : State), index.toNat < s.nMax.toNat →
    (∃ t, exec (.wre index word) s = .next t ∧ RespondsOk 0 t ∧ memRead .ebuf index.toNat t = word ∧
      (∀ i, i ≠ index.toNat → memRead .ebuf i t = memRead .ebuf i s) ∧ SameBuffer .wbuf s t ∧ SameBuffer .obuf s t ∧
      SameLengths s t ∧ SameInstance s t ∧ t.lcgState = s.lcgState) ∧
    ∃ t, exec (.wrw index word) s = .next t ∧ RespondsOk 0 t ∧ memRead .wbuf index.toNat t = word ∧
      (∀ i, i ≠ index.toNat → memRead .wbuf i t = memRead .wbuf i s) ∧ SameBuffer .ebuf s t ∧ SameBuffer .obuf s t ∧
      SameLengths s t ∧ SameInstance s t ∧ t.lcgState = s.lcgState

/-- 47_buffer_access.md R242, R244 and R247, by R240, and 20_memory.md R54: `RDE`, `RDW` and `RDO` respond the word at a valid
index, written or not, change no state, and are idempotent; an index of `N_MAX` or above faults. -/
def Obligations.HostReadsRespondOneWord : Prop :=
  (∀ a b : Word, decode (mkPacket 0x61#8 a b) = .command (.rde a) ∧ decode (mkPacket 0x63#8 a b) = .command (.rdw a) ∧
    decode (mkPacket 0x64#8 a b) = .command (.rdo a)) ∧
  (∀ (index : Word) (s : State), s.nMax.toNat ≤ index.toNat →
    FaultsWith (.rde index) s .badIndex ∧ FaultsWith (.rdw index) s .badIndex ∧ FaultsWith (.rdo index) s .badIndex) ∧
  ∀ (index : Word) (s : State), index.toNat < s.nMax.toNat →
    (∃ t, exec (.rde index) s = .next t ∧ RespondsOk (memRead .ebuf index.toNat s) t ∧ NothingMoves s t ∧
      exec (.rde index) t = .next t) ∧
    (∃ t, exec (.rdw index) s = .next t ∧ RespondsOk (memRead .wbuf index.toNat s) t ∧ NothingMoves s t ∧
      exec (.rdw index) t = .next t) ∧
    ∃ t, exec (.rdo index) s = .next t ∧ RespondsOk (memRead .obuf index.toNat s) t ∧ NothingMoves s t ∧
      exec (.rdo index) t = .next t

/-- 47_buffer_access.md R245 and R246: `SETLEN` and `SETWLEN` write their register for `n ≤ N_MAX`, the limit included, change
no word, and fault above it. -/
def Obligations.LengthsAreSetUpToCapacity : Prop :=
  (∀ a b : Word, decode (mkPacket 0x68#8 a b) = .command (.setlen a) ∧ decode (mkPacket 0x69#8 a b) = .command (.setwlen a)) ∧
  (∀ (n : Word) (s : State), s.nMax.toNat < n.toNat →
    FaultsWith (.setlen n) s .badIndex ∧ FaultsWith (.setwlen n) s .badIndex) ∧
  ∀ (n : Word) (s : State), n.toNat ≤ s.nMax.toNat →
    (∃ t, exec (.setlen n) s = .next t ∧ RespondsOk 0 t ∧ t.len.toNat = n.toNat ∧ t.wlen = s.wlen ∧ t.olen = s.olen ∧
      SameBuffers s t ∧ SameInstance s t ∧ t.lcgState = s.lcgState ∧
      (n = 0 → Answers .shuf t 0 ∧ Answers .perm t 0)) ∧
    ∃ t, exec (.setwlen n) s = .next t ∧ RespondsOk 0 t ∧ t.wlen.toNat = n.toNat ∧ t.len = s.len ∧ t.olen = s.olen ∧
      SameBuffers s t ∧ SameInstance s t ∧ t.lcgState = s.lcgState ∧ (n = 0 → FaultsWith .wchi t .emptyInput)

/-- 47_buffer_access.md R248, R249 and R250: `GETLEN`, `GETWLEN` and `GETOLEN` respond their register, zero-extended, change no
state and cannot fault; after reset they respond 0. -/
def Obligations.LengthsAreReadBack : Prop :=
  (∀ a b : Word, decode (mkPacket 0x6A#8 a b) = .command .getlen ∧ decode (mkPacket 0x6B#8 a b) = .command .getwlen ∧
    decode (mkPacket 0x6C#8 a b) = .command .getolen) ∧
  (∀ s : State,
    (∃ t v, exec .getlen s = .next t ∧ RespondsOk v t ∧ v.toNat = s.len.toNat ∧ NothingMoves s t) ∧
    (∃ t v, exec .getwlen s = .next t ∧ RespondsOk v t ∧ v.toNat = s.wlen.toNat ∧ NothingMoves s t) ∧
    ∃ t v, exec .getolen s = .next t ∧ RespondsOk v t ∧ v.toNat = s.olen.toNat ∧ NothingMoves s t) ∧
  ∀ (c : Config) (p : Nat),
    Answers .getlen (State.resetWith c p) 0 ∧ Answers .getwlen (State.resetWith c p) 0 ∧
    Answers .getolen (State.resetWith c p) 0

/-- A word written by `WRE` is what `RDE` responds after any number of commands that do not write that word of `EBUF`, `WRE` at
other indices among them, and a word written by `WRW` is what `RDW` responds (20_memory.md R58): a run of the unit over the
packets of the write, of those commands, and of the read. -/
def Obligations.ReadReturnsTheLatestWrite : Prop :=
  ∀ (s : State) (index word : Word) (between : List Instr), index.toNat < s.nMax.toNat →
    ((∀ i ∈ between, ¬ writesEbufWord index.toNat i) →
      s.commands = encode (.wre index word) :: (between.map encode ++ [encode (.rde index)]) →
      ∃ t, core.run (between.length + 2) s = .next t ∧ RespondsOk word t ∧ t.commands = []) ∧
    ((∀ i ∈ between, ¬ writesWbufWord index.toNat i) →
      s.commands = encode (.wrw index word) :: (between.map encode ++ [encode (.rdw index)]) →
      ∃ t, core.run (between.length + 2) s = .next t ∧ RespondsOk word t ∧ t.commands = [])

/-- The pseudo-instruction `LOADE` (30_encoding.md R81) leaves its words in `EBUF[0 .. k-1]` and `k` in `LEN`, for every list
that fits. -/
def Obligations.LoadELoadsTheElements : Prop :=
  ∀ (s : State) (vs : List Word), vs.length ≤ s.nMax.toNat → s.commands = (expandLoadE vs).map encode →
    ∃ t, core.run (vs.length + 1) s = .next t ∧ elementList t = vs ∧
      (∀ i, vs.length ≤ i → memRead .ebuf i t = memRead .ebuf i s) ∧ t.lcgState = s.lcgState

/-! ### The whole machine -/

/-- 60_exceptions.md R263 to R266: the status of every command's response has exactly the causes and the priority listed. -/
def Obligations.FaultsHaveTheirListedCauses : Prop :=
  ∀ (i : Instr) (s : State), ∃ t v, exec i s = .next t ∧ t.response = some ⟨expectedStatus s i, v⟩

/-- 60_exceptions.md R262: a faulting command, one with a reserved opcode too, changes nothing and makes no draw; only the
response tells. -/
def Obligations.FaultingCommandsChangeNothing : Prop :=
  (∀ (i : Instr) (s t : State) (r : Response), exec i s = .next t → t.response = some r → r.status ≠ .ok →
    t = { s with response := some ⟨r.status, 0⟩ }) ∧
  ∀ (s t : State) (p : Packet) (rest : List Packet) (r : Response), s.commands = p :: rest → step s = .next t →
    t.response = some r → r.status ≠ .ok → t = { s with commands := rest, response := some ⟨r.status, 0⟩ }

/-- 70_reset_and_hazards.md R304: the number of draws every command makes when it does not fault, and none when it faults or
its opcode is reserved. -/
def Obligations.CommandsMakeTheirListedDraws : Prop :=
  (∀ (i : Instr) (s t : State) (r : Response), exec i s = .next t → t.response = some r →
    (r.status = .ok → t.lcgState.toNat = afterDraws s (drawCount s i) (drawsStartFrom s i)) ∧
    (r.status ≠ .ok → t.lcgState = s.lcgState)) ∧
  ∀ (s t : State) (p : Packet) (rest : List Packet), s.commands = p :: rest → packetOp p ∉ legalOpcodes →
    step s = .next t → t.lcgState = s.lcgState

/-- Who writes what (10_state.md R26, R27, R29; 20_memory.md R51): the constants and the capacity never change, each length
register is written by its own commands only, and each buffer by its own commands only. -/
def Obligations.EachRegisterHasItsOwnWriters : Prop :=
  ∀ (i : Instr) (s t : State), exec i s = .next t →
    SameInstance s t ∧
    ((∀ n, i ≠ .setlen n) → t.len = s.len) ∧ ((∀ n, i ≠ .setwlen n) → t.wlen = s.wlen) ∧
    (¬ writesObuf i → t.olen = s.olen ∧ SameBuffer .obuf s t) ∧
    (¬ writesEbuf i → SameBuffer .ebuf s t) ∧ (¬ writesWbuf i → SameBuffer .wbuf s t)

/-- `STATE` is observable only through draws (10_state.md R25; 60_exceptions.md R278): a command that makes no draw and is not
`INIT` answers the same and does the same to everything else, whatever `STATE` holds. -/
def Obligations.StateIsSeenOnlyThroughDraws : Prop :=
  ∀ (i : Instr) (s t : State) (x : Word), drawCount s i = 0 → exec i s = .next t →
    exec i { s with lcgState := x } = .next { t with lcgState := x }

/-- Every step keeps the invariant: lengths in `0 .. N_MAX`, buffers canonical and inside their address space, a fault response
with value 0 (10_state.md R29; 20_memory.md R50; 30_encoding.md R73). -/
def Obligations.StepKeepsTheInvariant : Prop :=
  ∀ s t : State, Inv s → step s = .next t → Inv t

/-- The state after reset meets the invariant, for every instance and whatever its buffers came up with; so does the unit of
`unitConfig` (10_state.md R40). -/
def Obligations.ResetMeetsTheInvariant : Prop :=
  (∀ (c : Config) (p : Nat), c.wf → Inv (State.resetWith c p)) ∧ Inv State.reset

/-- 70_reset_and_hazards.md R292, with the registers of 10_state.md R40: the registers after reset; reset loads `DEFAULT_STATE`
itself and makes no draw, so the first `NEXTU32` responds its output; `INIT` after reset is the other path; the lengths are
0. -/
def Obligations.ResetRunsNoInit : Prop :=
  ∀ (c : Config) (p : Nat),
    (State.resetWith c p).lcgState = c.defaultState ∧ (State.resetWith c p).mult = c.multInit ∧
    (State.resetWith c p).incr = c.incrInit ∧ (State.resetWith c p).len = 0 ∧ (State.resetWith c p).wlen = 0 ∧
    (State.resetWith c p).olen = 0 ∧
    (∃ t v, exec .nextu32 (State.resetWith c p) = .next t ∧ RespondsOk v t ∧
      v.toNat = outputFormula c.defaultState.toNat ∧
      t.lcgState.toNat = (c.defaultState.toNat * c.multInit.toNat + c.incrInit.toNat) % 2 ^ 64) ∧
    (∀ seed : Word, ∃ t, exec (.init seed) (State.resetWith c p) = .next t ∧
      t.lcgState.toNat =
        ((seed.toNat + c.incrInit.toNat) % 2 ^ 64 * c.multInit.toNat + c.incrInit.toNat) % 2 ^ 64) ∧
    elementList (State.resetWith c p) = [] ∧ weightList (State.resetWith c p) = [] ∧
    Answers .getolen (State.resetWith c p) 0

/-- THE MODEL'S CHOICE (log entry 7): of the two treatments that 93_implementation_defined.md U1 allows for a word never written
since reset (10_state.md R40), "any value" is taken. Each such word holds its free value `Config.freeWord` from reset on, and
the command that reads it responds that value, after any number of commands that do not write the word. -/
def Obligations.UnwrittenWordsKeepTheirFreeContent : Prop :=
  ∀ (c : Config) (p : Nat),
    (∀ (sp : Space) (i : Nat), memRead sp i (State.resetWith c p) = Config.freeWord p sp i) ∧
    ∀ (index : Word) (before : List Instr), index.toNat < c.nMax.toNat →
      ((∀ i ∈ before, ¬ writesEbufWord index.toNat i) →
        ∃ t, core.run (before.length + 1)
            { State.resetWith c p with commands := before.map encode ++ [encode (.rde index)] } = .next t ∧
          RespondsOk (Config.freeWord p .ebuf index.toNat) t ∧ t.commands = []) ∧
      ((∀ i ∈ before, ¬ writesWbufWord index.toNat i) →
        ∃ t, core.run (before.length + 1)
            { State.resetWith c p with commands := before.map encode ++ [encode (.rdw index)] } = .next t ∧
          RespondsOk (Config.freeWord p .wbuf index.toNat) t ∧ t.commands = []) ∧
      ((∀ i ∈ before, ¬ writesObuf i) →
        ∃ t, core.run (before.length + 1)
            { State.resetWith c p with commands := before.map encode ++ [encode (.rdo index)] } = .next t ∧
          RespondsOk (Config.freeWord p .obuf index.toNat) t ∧ t.commands = [])
end

