-- ==== Sys2Proof/Laws/State.lean ====
section
/-! SUPPORT. One lemma for each field and each operation that updates the state, true by rfl, so that no later proof unfolds
a record update. -/

namespace Sys2Proof.Machine

/-! #### `respond` -/

@[simp] theorem respond_lcgState (v : Word) (s : State) : (respond v s).lcgState = s.lcgState := rfl
@[simp] theorem respond_mult (v : Word) (s : State) : (respond v s).mult = s.mult := rfl
@[simp] theorem respond_incr (v : Word) (s : State) : (respond v s).incr = s.incr := rfl
@[simp] theorem respond_len (v : Word) (s : State) : (respond v s).len = s.len := rfl
@[simp] theorem respond_wlen (v : Word) (s : State) : (respond v s).wlen = s.wlen := rfl
@[simp] theorem respond_olen (v : Word) (s : State) : (respond v s).olen = s.olen := rfl
@[simp] theorem respond_mem (v : Word) (s : State) : (respond v s).mem = s.mem := rfl
@[simp] theorem respond_nMax (v : Word) (s : State) : (respond v s).nMax = s.nMax := rfl
@[simp] theorem respond_powerUp (v : Word) (s : State) : (respond v s).powerUp = s.powerUp := rfl
@[simp] theorem respond_commands (v : Word) (s : State) : (respond v s).commands = s.commands := rfl
@[simp] theorem respond_response (v : Word) (s : State) : (respond v s).response = some ⟨.ok, v⟩ := rfl

/-! #### `raiseFault` -/

@[simp] theorem raiseFault_lcgState (f : Status) (s : State) : (raiseFault f s).lcgState = s.lcgState := rfl
@[simp] theorem raiseFault_mult (f : Status) (s : State) : (raiseFault f s).mult = s.mult := rfl
@[simp] theorem raiseFault_incr (f : Status) (s : State) : (raiseFault f s).incr = s.incr := rfl
@[simp] theorem raiseFault_len (f : Status) (s : State) : (raiseFault f s).len = s.len := rfl
@[simp] theorem raiseFault_wlen (f : Status) (s : State) : (raiseFault f s).wlen = s.wlen := rfl
@[simp] theorem raiseFault_olen (f : Status) (s : State) : (raiseFault f s).olen = s.olen := rfl
@[simp] theorem raiseFault_mem (f : Status) (s : State) : (raiseFault f s).mem = s.mem := rfl
@[simp] theorem raiseFault_nMax (f : Status) (s : State) : (raiseFault f s).nMax = s.nMax := rfl
@[simp] theorem raiseFault_powerUp (f : Status) (s : State) : (raiseFault f s).powerUp = s.powerUp := rfl
@[simp] theorem raiseFault_commands (f : Status) (s : State) : (raiseFault f s).commands = s.commands := rfl
@[simp] theorem raiseFault_response (f : Status) (s : State) : (raiseFault f s).response = some ⟨f, 0⟩ := rfl

/-! #### `memWrite` -/

@[simp] theorem memWrite_lcgState (sp : Space) (i : Nat) (v : Word) (s : State) : (memWrite sp i v s).lcgState = s.lcgState := rfl
@[simp] theorem memWrite_mult (sp : Space) (i : Nat) (v : Word) (s : State) : (memWrite sp i v s).mult = s.mult := rfl
@[simp] theorem memWrite_incr (sp : Space) (i : Nat) (v : Word) (s : State) : (memWrite sp i v s).incr = s.incr := rfl
@[simp] theorem memWrite_len (sp : Space) (i : Nat) (v : Word) (s : State) : (memWrite sp i v s).len = s.len := rfl
@[simp] theorem memWrite_wlen (sp : Space) (i : Nat) (v : Word) (s : State) : (memWrite sp i v s).wlen = s.wlen := rfl
@[simp] theorem memWrite_olen (sp : Space) (i : Nat) (v : Word) (s : State) : (memWrite sp i v s).olen = s.olen := rfl
@[simp] theorem memWrite_mem (sp : Space) (i : Nat) (v : Word) (s : State) : (memWrite sp i v s).mem = withBuffer s.mem sp (bufWrite (bufferOf s.mem sp) i v) := rfl
@[simp] theorem memWrite_nMax (sp : Space) (i : Nat) (v : Word) (s : State) : (memWrite sp i v s).nMax = s.nMax := rfl
@[simp] theorem memWrite_powerUp (sp : Space) (i : Nat) (v : Word) (s : State) : (memWrite sp i v s).powerUp = s.powerUp := rfl
@[simp] theorem memWrite_commands (sp : Space) (i : Nat) (v : Word) (s : State) : (memWrite sp i v s).commands = s.commands := rfl
@[simp] theorem memWrite_response (sp : Space) (i : Nat) (v : Word) (s : State) : (memWrite sp i v s).response = s.response := rfl

/-! #### `idle` -/

@[simp] theorem idle_lcgState (s : State) : (idle s).lcgState = s.lcgState := rfl
@[simp] theorem idle_mult (s : State) : (idle s).mult = s.mult := rfl
@[simp] theorem idle_incr (s : State) : (idle s).incr = s.incr := rfl
@[simp] theorem idle_len (s : State) : (idle s).len = s.len := rfl
@[simp] theorem idle_wlen (s : State) : (idle s).wlen = s.wlen := rfl
@[simp] theorem idle_olen (s : State) : (idle s).olen = s.olen := rfl
@[simp] theorem idle_mem (s : State) : (idle s).mem = s.mem := rfl
@[simp] theorem idle_nMax (s : State) : (idle s).nMax = s.nMax := rfl
@[simp] theorem idle_powerUp (s : State) : (idle s).powerUp = s.powerUp := rfl
@[simp] theorem idle_commands (s : State) : (idle s).commands = s.commands := rfl
@[simp] theorem idle_response (s : State) : (idle s).response = none := rfl

/-! #### `rejectPacket` -/

@[simp] theorem rejectPacket_lcgState (s : State) : (rejectPacket s).lcgState = s.lcgState := rfl
@[simp] theorem rejectPacket_mult (s : State) : (rejectPacket s).mult = s.mult := rfl
@[simp] theorem rejectPacket_incr (s : State) : (rejectPacket s).incr = s.incr := rfl
@[simp] theorem rejectPacket_len (s : State) : (rejectPacket s).len = s.len := rfl
@[simp] theorem rejectPacket_wlen (s : State) : (rejectPacket s).wlen = s.wlen := rfl
@[simp] theorem rejectPacket_olen (s : State) : (rejectPacket s).olen = s.olen := rfl
@[simp] theorem rejectPacket_mem (s : State) : (rejectPacket s).mem = s.mem := rfl
@[simp] theorem rejectPacket_nMax (s : State) : (rejectPacket s).nMax = s.nMax := rfl
@[simp] theorem rejectPacket_powerUp (s : State) : (rejectPacket s).powerUp = s.powerUp := rfl
@[simp] theorem rejectPacket_commands (s : State) : (rejectPacket s).commands = s.commands := rfl
@[simp] theorem rejectPacket_response (s : State) : (rejectPacket s).response = some ⟨.badCommand, 0⟩ := rfl

/-! #### `presentCommand` -/

@[simp] theorem presentCommand_lcgState (p : Packet) (s : State) : (presentCommand p s).lcgState = s.lcgState := rfl
@[simp] theorem presentCommand_mult (p : Packet) (s : State) : (presentCommand p s).mult = s.mult := rfl
@[simp] theorem presentCommand_incr (p : Packet) (s : State) : (presentCommand p s).incr = s.incr := rfl
@[simp] theorem presentCommand_len (p : Packet) (s : State) : (presentCommand p s).len = s.len := rfl
@[simp] theorem presentCommand_wlen (p : Packet) (s : State) : (presentCommand p s).wlen = s.wlen := rfl
@[simp] theorem presentCommand_olen (p : Packet) (s : State) : (presentCommand p s).olen = s.olen := rfl
@[simp] theorem presentCommand_mem (p : Packet) (s : State) : (presentCommand p s).mem = s.mem := rfl
@[simp] theorem presentCommand_nMax (p : Packet) (s : State) : (presentCommand p s).nMax = s.nMax := rfl
@[simp] theorem presentCommand_powerUp (p : Packet) (s : State) : (presentCommand p s).powerUp = s.powerUp := rfl
@[simp] theorem presentCommand_commands (p : Packet) (s : State) : (presentCommand p s).commands = p :: s.commands.tail := rfl
@[simp] theorem presentCommand_response (p : Packet) (s : State) : (presentCommand p s).response = s.response := rfl

/-! #### `nextU32`: the output comes from the state before the draw, and only `STATE` moves -/

@[simp] theorem nextU32_output (s : State) : (nextU32 s).1 = xshRr s.lcgState := rfl
@[simp] theorem nextU32_lcgState (s : State) : (nextU32 s).2.lcgState = lcg s.lcgState s.mult s.incr := rfl
@[simp] theorem nextU32_mult (s : State) : (nextU32 s).2.mult = s.mult := rfl
@[simp] theorem nextU32_incr (s : State) : (nextU32 s).2.incr = s.incr := rfl
@[simp] theorem nextU32_len (s : State) : (nextU32 s).2.len = s.len := rfl
@[simp] theorem nextU32_wlen (s : State) : (nextU32 s).2.wlen = s.wlen := rfl
@[simp] theorem nextU32_olen (s : State) : (nextU32 s).2.olen = s.olen := rfl
@[simp] theorem nextU32_mem (s : State) : (nextU32 s).2.mem = s.mem := rfl
@[simp] theorem nextU32_nMax (s : State) : (nextU32 s).2.nMax = s.nMax := rfl
@[simp] theorem nextU32_powerUp (s : State) : (nextU32 s).2.powerUp = s.powerUp := rfl
@[simp] theorem nextU32_commands (s : State) : (nextU32 s).2.commands = s.commands := rfl
@[simp] theorem nextU32_response (s : State) : (nextU32 s).2.response = s.response := rfl

end Sys2Proof.Machine
end

