-- ==== Sys2Proof/Laws/Memory.lean ====
section
/-! SUPPORT. The laws of the buffers: a read after a write, what a write leaves alone, and that every operation over memory
keeps its canonical form. -/

namespace Sys2Proof.Machine

theorem bufRead_bufWrite (b : Buffer) (i k : Nat) (v : Word) :
    bufRead (bufWrite b i v) k = if k = i then some v else bufRead b k := by
  induction b with
  | nil => rfl
  | cons c rest ih =>
    obtain ⟨j, w⟩ := c
    simp only [bufWrite]
    split
    · simp [bufRead]
    · split
      · subst i; simp only [bufRead]; split <;> rfl
      · simp only [bufRead, ih]
        split
        · rw [if_neg (by omega)]
        · rfl

theorem risesFrom_bufWrite (b : Buffer) (lo i : Nat) (v : Word) (h : Buffer.risesFrom lo b = true) (hi : lo ≤ i) :
    Buffer.risesFrom lo (bufWrite b i v) = true := by
  induction b generalizing lo with
  | nil => simp [bufWrite, Buffer.risesFrom, hi]
  | cons c rest ih =>
    obtain ⟨j, w⟩ := c
    simp only [Buffer.risesFrom, Bool.and_eq_true, decide_eq_true_eq] at h
    simp only [bufWrite]
    split
    · simp [Buffer.risesFrom, hi, h.2]; omega
    · split
      · subst i; simp [Buffer.risesFrom, h.1, h.2]
      · simp [Buffer.risesFrom, h.1, ih (j + 1) h.2 (by omega)]

theorem below_bufWrite (b : Buffer) (n i : Nat) (v : Word) (h : Buffer.below n b = true) (hi : i < n) :
    Buffer.below n (bufWrite b i v) = true := by
  induction b with
  | nil => simp [bufWrite, Buffer.below, hi]
  | cons c rest ih =>
    obtain ⟨j, w⟩ := c
    simp only [Buffer.below, List.all_cons, Bool.and_eq_true, decide_eq_true_eq] at h ih
    simp only [bufWrite]
    split
    · simpa [Buffer.below, hi] using h
    · split
      · simpa [Buffer.below, hi] using h.2
      · simpa [Buffer.below] using ⟨h.1, by simpa using ih h.2⟩

/-- A write inside the address space keeps a buffer's canonical form. -/
theorem bufWrite_wf (b : Buffer) (n i : Nat) (v : Word) (h : Buffer.wf n b = true) (hi : i < n) :
    Buffer.wf n (bufWrite b i v) = true := by
  simp only [Buffer.wf, Bool.and_eq_true] at h ⊢
  exact ⟨risesFrom_bufWrite b 0 i v h.1 (Nat.zero_le i), below_bufWrite b n i v h.2 hi⟩

@[simp] theorem bufferOf_withBuffer_same (m : Memory) (sp : Space) (b : Buffer) : bufferOf (withBuffer m sp b) sp = b := by
  cases sp <;> rfl

/-- The buffers are disjoint (10_state.md R33). -/
theorem bufferOf_withBuffer_other (m : Memory) (sp sp' : Space) (b : Buffer) (h : sp' ≠ sp) :
    bufferOf (withBuffer m sp b) sp' = bufferOf m sp' := by
  cases sp <;> cases sp' <;> first | rfl | exact absurd rfl h

theorem withBuffer_wf (m : Memory) (n : Nat) (sp : Space) (b : Buffer) (h : Memory.wf n m = true)
    (hb : Buffer.wf n b = true) : Memory.wf n (withBuffer m sp b) = true := by
  simp only [Memory.wf, Bool.and_eq_true] at h ⊢
  cases sp
  · exact ⟨⟨hb, h.1.2⟩, h.2⟩
  · exact ⟨⟨h.1.1, hb⟩, h.2⟩
  · exact ⟨h.1, hb⟩

theorem bufferOf_wf (m : Memory) (n : Nat) (sp : Space) (h : Memory.wf n m = true) : Buffer.wf n (bufferOf m sp) = true := by
  simp only [Memory.wf, Bool.and_eq_true] at h
  cases sp
  · exact h.1.1
  · exact h.1.2
  · exact h.2

/-- `MemWrite` inside the address space keeps the memory's canonical form. -/
theorem memWrite_wf (sp : Space) (n i : Nat) (v : Word) (s : State) (h : Memory.wf n s.mem = true) (hi : i < n) :
    Memory.wf n (memWrite sp i v s).mem = true :=
  withBuffer_wf s.mem n sp _ h (bufWrite_wf _ n i v (bufferOf_wf s.mem n sp h) hi)

/-- What a word reads as after a write: the written value where it was written, and what it was elsewhere. -/
theorem memRead_memWrite (sp sp' : Space) (i k : Nat) (v : Word) (s : State) :
    memRead sp' k (memWrite sp i v s) = if sp' = sp ∧ k = i then v else memRead sp' k s := by
  by_cases hs : sp' = sp
  · subst hs
    simp only [memRead, memWrite_mem, memWrite_powerUp, bufferOf_withBuffer_same, bufRead_bufWrite, true_and]
    split <;> rfl
  · simp only [memRead, memWrite_mem, memWrite_powerUp, bufferOf_withBuffer_other _ _ _ _ hs, hs, false_and, if_false]

/-- A word reads the same in two states with the same memory that came up alike. -/
theorem memRead_congr (sp : Space) (i : Nat) (s t : State) (hm : t.mem = s.mem) (hp : t.powerUp = s.powerUp) :
    memRead sp i t = memRead sp i s := by
  simp only [memRead, hm, hp]

@[simp] theorem memReadList_length (sp : Space) (n : Nat) (s : State) : (memReadList sp n s).length = n := by
  simp [memReadList]

/-! #### Writing a list -/

/-- Only the memory moves when a list is written. -/
theorem memWriteFrom_eq (sp : Space) (k : Nat) (l : List Word) (s : State) :
    memWriteFrom sp k l s = { s with mem := (memWriteFrom sp k l s).mem } := by
  induction l generalizing k s with
  | nil => rfl
  | cons v vs ih => rw [memWriteFrom, ih]; rfl

/-- What a word reads as after a list has been written from index `k`. -/
theorem memRead_memWriteFrom (sp sp' : Space) (k i : Nat) (l : List Word) (s : State) :
    memRead sp' i (memWriteFrom sp k l s) =
      if sp' = sp ∧ k ≤ i then (l[i - k]?).getD (memRead sp' i s) else memRead sp' i s := by
  induction l generalizing k s with
  | nil => simp [memWriteFrom]
  | cons v vs ih =>
    rw [memWriteFrom, ih, memRead_memWrite]
    by_cases hs : sp' = sp
    · by_cases hk : k ≤ i
      · by_cases he : i = k
        · subst he; simp [hs]
        · have h1 : i - k = (i - (k + 1)) + 1 := by omega
          have h2 : k + 1 ≤ i := by omega
          simp only [hs, hk, h2, he, and_true, and_false, if_true, if_false, h1, List.getElem?_cons_succ]
      · have h2 : ¬ k + 1 ≤ i := by omega
        have h3 : i ≠ k := by omega
        simp only [hk, h2, h3, and_false, if_false]
    · simp [hs]

/-- Writing a list inside the address space keeps the memory's canonical form. -/
theorem memWriteFrom_wf (sp : Space) (n k : Nat) (l : List Word) (s : State) (h : Memory.wf n s.mem = true)
    (hk : k + l.length ≤ n) : Memory.wf n (memWriteFrom sp k l s).mem = true := by
  induction l generalizing k s with
  | nil => exact h
  | cons v vs ih =>
    simp only [List.length_cons] at hk
    exact ih (k + 1) (memWrite sp k v s) (memWrite_wf sp n k v s h (by omega)) (by omega)

/-- A word after a list has been written to a buffer. -/
theorem memRead_memWriteList (sp sp' : Space) (i : Nat) (l : List Word) (s : State) :
    memRead sp' i (memWriteList sp l s) = if sp' = sp then (l[i]?).getD (memRead sp' i s) else memRead sp' i s := by
  simp [memWriteList, memRead_memWriteFrom]

theorem memWriteList_wf (sp : Space) (n : Nat) (l : List Word) (s : State) (h : Memory.wf n s.mem = true)
    (hl : l.length ≤ n) : Memory.wf n (memWriteList sp l s).mem = true :=
  memWriteFrom_wf sp n 0 l s h (by omega)

theorem memWriteList_eq (sp : Space) (l : List Word) (s : State) :
    memWriteList sp l s = { s with mem := (memWriteList sp l s).mem } :=
  memWriteFrom_eq sp 0 l s

end Sys2Proof.Machine
end

