-- ==== Sys2Proof/Laws/Ops.lean ====
section
/-! SUPPORT. What the shared operations can do, said once for each: the choice of the fault, a command with its checks, and
the taking of a packet. -/

namespace Sys2Proof.Machine

/-- No fault is reported exactly when no check holds. -/
theorem firstFault_eq_none (checks : List (Bool × Status)) :
    firstFault checks = none ↔ ∀ c ∈ checks, c.1 = false := by
  induction checks with
  | nil => simp [firstFault]
  | cons c rest ih =>
    obtain ⟨holds, f⟩ := c
    cases holds
    · simpa [firstFault] using ih
    · simp [firstFault]

/-- A reported fault is one of the checks, and none before it holds. -/
theorem firstFault_eq_some (checks : List (Bool × Status)) (f : Status) (h : firstFault checks = some f) :
    ∃ before after, checks = before ++ (true, f) :: after ∧ ∀ c ∈ before, c.1 = false := by
  induction checks with
  | nil => simp [firstFault] at h
  | cons c rest ih =>
    obtain ⟨holds, g⟩ := c
    cases holds
    · obtain ⟨before, after, h1, h2⟩ := ih (by simpa [firstFault] using h)
      exact ⟨(false, g) :: before, after, by simp [h1], by simpa using h2⟩
    · simp only [firstFault, if_true, Option.some.injEq] at h
      exact ⟨[], rest, by simp [h], by simp⟩

/-- A command either takes its first fault, with nothing else changed, or has its effect. -/
theorem runCommand_cases (checks : List (Bool × Status)) (effect : State → State) (s : State) :
    (∃ f, firstFault checks = some f ∧ runCommand checks effect s = raiseFault f s) ∨
    (firstFault checks = none ∧ runCommand checks effect s = effect s) := by
  unfold runCommand
  cases h : firstFault checks with
  | none => exact .inr ⟨rfl, rfl⟩
  | some f => exact .inl ⟨f, rfl, rfl⟩

theorem runCommand_of_none (checks : List (Bool × Status)) (effect : State → State) (s : State)
    (h : firstFault checks = none) : runCommand checks effect s = effect s := by
  simp [runCommand, h]

theorem runCommand_of_some (checks : List (Bool × Status)) (effect : State → State) (s : State) (f : Status)
    (h : firstFault checks = some f) : runCommand checks effect s = raiseFault f s := by
  simp [runCommand, h]

/-- The response of `respond` and of `raiseFault` is no part of what a buffer word reads as. -/
@[simp] theorem memRead_respond (sp : Space) (i : Nat) (v : Word) (s : State) : memRead sp i (respond v s) = memRead sp i s :=
  rfl

@[simp] theorem memRead_raiseFault (sp : Space) (i : Nat) (f : Status) (s : State) :
    memRead sp i (raiseFault f s) = memRead sp i s :=
  rfl

@[simp] theorem memRead_nextU32 (sp : Space) (i : Nat) (s : State) : memRead sp i (nextU32 s).2 = memRead sp i s := rfl

/-- With no packet presented there is nothing to take. -/
theorem takeCommand_nil (s : State) (h : s.commands = []) : takeCommand s = none := by
  simp [takeCommand, h]

/-- The packet that is taken is the first, and the others remain. -/
theorem takeCommand_cons (s : State) (p : Packet) (rest : List Packet) (h : s.commands = p :: rest) :
    takeCommand s = some (p, { s with commands := rest }) := by
  simp [takeCommand, h]

end Sys2Proof.Machine
end

