-- ==== Sys2Proof/Laws/Binary64.lean ====
section
/-! SUPPORT. The fields of a binary64 word made of its sign and its other 63 bits, and what `roundHalfEven` and
`roundMagnitude` give. -/

namespace Sys2Proof.Machine

/-- The word with the sign `neg` and the bits `m` below it. -/
def signedBits (neg : Bool) (m : Nat) : Word := BitVec.ofNat 64 (signWeight neg + m)

theorem roundNearest_eq (neg : Bool) (num den : Nat) : roundNearest neg num den = signedBits neg (roundMagnitude num den) := rfl

theorem signedBits_toNat (neg : Bool) (m : Nat) (h : m < 2 ^ 63) : (signedBits neg m).toNat = signWeight neg + m := by
  rw [signedBits, BitVec.toNat_ofNat]
  cases neg <;> simp only [signWeight, if_true, if_false, Bool.false_eq_true] <;> omega

theorem f64Sign_eq (w : Word) : f64Sign w = decide (2 ^ 63 ≤ w.toNat) := by
  have h := w.isLt
  rw [f64Sign, BitVec.getLsbD, Nat.testBit_eq_decide_div_mod_eq, decide_eq_decide]
  omega

theorem f64Sign_signedBits (neg : Bool) (m : Nat) (h : m < 2 ^ 63) : f64Sign (signedBits neg m) = neg := by
  rw [f64Sign_eq, signedBits_toNat neg m h]
  cases neg
  · exact decide_eq_false (by simp only [signWeight, if_false, Bool.false_eq_true]; omega)
  · exact decide_eq_true (by simp only [signWeight, if_true]; omega)

theorem f64Exp_signedBits (neg : Bool) (m : Nat) (h : m < 2 ^ 63) : f64Exp (signedBits neg m) = m / 2 ^ 52 := by
  rw [f64Exp, signedBits_toNat neg m h]
  cases neg <;> simp only [signWeight, if_true, if_false, Bool.false_eq_true] <;> omega

theorem f64Frac_signedBits (neg : Bool) (m : Nat) (h : m < 2 ^ 63) : f64Frac (signedBits neg m) = m % 2 ^ 52 := by
  rw [f64Frac, signedBits_toNat neg m h]
  cases neg <;> simp only [signWeight, if_true, if_false, Bool.false_eq_true] <;> omega

/-- Every word is made of its sign and its other 63 bits. -/
theorem signedBits_fields (w : Word) : signedBits (f64Sign w) (f64Exp w * 2 ^ 52 + f64Frac w) = w := by
  have h := w.isLt
  have he : f64Exp w * 2 ^ 52 + f64Frac w = w.toNat % 2 ^ 63 := by
    rw [f64Exp, f64Frac]; omega
  apply BitVec.eq_of_toNat_eq
  rw [he, signedBits_toNat _ _ (by omega), f64Sign_eq]
  by_cases hs : 2 ^ 63 ≤ w.toNat <;> simp only [hs, decide_true, decide_false, signWeight, if_true, if_false, Bool.false_eq_true] <;> omega

theorem f64Exp_lt (w : Word) : f64Exp w < 2048 := Nat.mod_lt _ (by norm_num)

theorem f64Frac_lt (w : Word) : f64Frac w < 2 ^ 52 := Nat.mod_lt _ (by norm_num)

/-- The magnitude of a word made of `k` exponent steps and a significand `r` of at most 53 bits, or 2^53 itself. -/
theorem f64Mag_signedBits (neg : Bool) (k r : Nat) (hk : k * 2 ^ 52 + r < 2 ^ 63) (hr : r ≤ 2 ^ 53)
    (h : k = 0 ∨ 2 ^ 52 ≤ r) : f64Mag (signedBits neg (k * 2 ^ 52 + r)) = r * 2 ^ k := by
  rw [f64Mag, f64Exp_signedBits _ _ hk, f64Frac_signedBits _ _ hk]
  rcases Nat.lt_or_ge r (2 ^ 52) with h1 | h1
  · have h0 : k = 0 := by omega
    subst h0
    rw [if_pos (by omega), show (0 * 2 ^ 52 + r) % 2 ^ 52 = r by omega]; simp
  · rcases Nat.lt_or_ge r (2 ^ 53) with h2 | h2
    · rw [if_neg (by omega), show (k * 2 ^ 52 + r) / 2 ^ 52 - 1 = k by omega,
        show 2 ^ 52 + (k * 2 ^ 52 + r) % 2 ^ 52 = r by omega]
    · have h3 : r = 2 ^ 53 := by omega
      subst h3
      rw [if_neg (by omega), show (k * 2 ^ 52 + 2 ^ 53) / 2 ^ 52 - 1 = k + 1 by omega,
        show 2 ^ 52 + (k * 2 ^ 52 + 2 ^ 53) % 2 ^ 52 = 2 ^ 52 by omega, Nat.pow_succ]
      omega

/-- A rounded quotient is within half a unit of the quotient, and even where it is exactly half a unit away. -/
theorem roundHalfEven_spec (num den : Nat) (h : 0 < den) :
    2 * num ≤ (2 * roundHalfEven num den + 1) * den ∧ 2 * (roundHalfEven num den * den) ≤ 2 * num + den ∧
    ((2 * num = (2 * roundHalfEven num den + 1) * den ∨ 2 * (roundHalfEven num den * den) = 2 * num + den) →
      roundHalfEven num den % 2 = 0) := by
  have e := Nat.div_add_mod num den
  have l := Nat.mod_lt num h
  rw [roundHalfEven]
  generalize num / den = q at *
  generalize num % den = r at *
  have hq : den * q = q * den := Nat.mul_comm _ _
  have h1 : (q + 1) * den = q * den + den := by rw [Nat.add_mul, Nat.one_mul]
  have h2 : (2 * q + 1) * den = 2 * (q * den) + den := by rw [Nat.add_mul, Nat.one_mul, Nat.mul_assoc]
  have h3 : (2 * (q + 1) + 1) * den = 2 * (q * den) + 3 * den := by ring
  split
  · rw [h1, h3]; omega
  · rw [h2]; omega

/-- The parts of a rounded magnitude: `k` exponent steps and the significand. -/
theorem roundMagnitude_eq (num den : Nat) :
    roundMagnitude num den =
      min (2047 * 2 ^ 52)
        (((num / den).log2 - 52) * 2 ^ 52 + roundHalfEven num (den * 2 ^ ((num / den).log2 - 52))) := rfl

/-- A rounded magnitude leaves the sign bit alone. -/
theorem roundMagnitude_lt (num den : Nat) : roundMagnitude num den < 2 ^ 63 := by
  rw [roundMagnitude_eq]; omega

/-- The sign of a rounded magnitude is the one given. -/
theorem f64Sign_roundNearest (neg : Bool) (num den : Nat) : f64Sign (roundNearest neg num den) = neg := by
  rw [roundNearest_eq, f64Sign_signedBits _ _ (roundMagnitude_lt num den)]

/-! #### A word with bit 63 inverted -/

theorem flipSign_low (y : Word) : (y ^^^ 0x8000000000000000#64).toNat % 2 ^ 63 = y.toNat % 2 ^ 63 := by
  rw [BitVec.toNat_xor, Nat.xor_mod_two_pow]; simp

theorem f64Exp_of_low (w : Word) : f64Exp w = w.toNat % 2 ^ 63 / 2 ^ 52 := by rw [f64Exp]; omega

theorem f64Frac_of_low (w : Word) : f64Frac w = w.toNat % 2 ^ 63 % 2 ^ 52 := by rw [f64Frac]; omega

theorem f64Mag_flipSign (y : Word) : f64Mag (y ^^^ 0x8000000000000000#64) = f64Mag y := by
  simp only [f64Mag, f64Exp_of_low, f64Frac_of_low, flipSign_low]

theorem f64Finite_flipSign (y : Word) : f64Finite (y ^^^ 0x8000000000000000#64) = f64Finite y := by
  simp only [f64Finite, f64Exp_of_low, flipSign_low]

theorem f64IsNaN_flipSign (y : Word) : f64IsNaN (y ^^^ 0x8000000000000000#64) = f64IsNaN y := by
  simp only [f64IsNaN, f64Exp_of_low, f64Frac_of_low, flipSign_low]

end Sys2Proof.Machine
end

