-- ==== Sys2Proof/Laws/Packets.lean ====
section
/-! SUPPORT. The fields of a packet made of its three fields, and of the packet that a table word stands for. -/

namespace Sys2Proof

theorem mkPacket_toNat (op : BitVec 8) (a b : Word) :
    (mkPacket op a b).toNat = op.toNat * 2 ^ 128 + a.toNat * 2 ^ 64 + b.toNat := by
  have ha := a.isLt
  have hb := b.isLt
  rw [mkPacket, BitVec.toNat_append, BitVec.toNat_append, ← Nat.shiftLeft_add_eq_or_of_lt hb,
    ← Nat.shiftLeft_add_eq_or_of_lt ha, Nat.shiftLeft_eq, Nat.shiftLeft_eq]
  omega

@[simp] theorem packetOp_mkPacket (op : BitVec 8) (a b : Word) : packetOp (mkPacket op a b) = op := by
  have ha := a.isLt
  have hb := b.isLt
  have ho := op.isLt
  apply BitVec.eq_of_toNat_eq
  rw [packetOp, BitVec.extractLsb'_toNat, mkPacket_toNat, Nat.shiftRight_eq_div_pow]
  omega

@[simp] theorem packetA_mkPacket (op : BitVec 8) (a b : Word) : packetA (mkPacket op a b) = a := by
  have ha := a.isLt
  have hb := b.isLt
  apply BitVec.eq_of_toNat_eq
  rw [packetA, BitVec.extractLsb'_toNat, mkPacket_toNat, Nat.shiftRight_eq_div_pow]
  omega

@[simp] theorem packetB_mkPacket (op : BitVec 8) (a b : Word) : packetB (mkPacket op a b) = b := by
  have hb := b.isLt
  apply BitVec.eq_of_toNat_eq
  rw [packetB, BitVec.extractLsb'_toNat, mkPacket_toNat, Nat.shiftRight_eq_div_pow]
  omega

/-- A packet is made of its three fields. -/
theorem mkPacket_fields (p : Packet) : mkPacket (packetOp p) (packetA p) (packetB p) = p := by
  have hp := p.isLt
  apply BitVec.eq_of_toNat_eq
  rw [mkPacket_toNat, packetOp, packetA, packetB, BitVec.extractLsb'_toNat, BitVec.extractLsb'_toNat,
    BitVec.extractLsb'_toNat, Nat.shiftRight_eq_div_pow, Nat.shiftRight_eq_div_pow, Nat.shiftRight_eq_div_pow]
  omega

/-- The table word of a packet stands for the packet. -/
@[simp] theorem tablePacket_toNat (p : Packet) : tablePacket 136 p.toNat = p := by
  apply BitVec.eq_of_toNat_eq
  have hp := p.isLt
  rw [tablePacket, BitVec.toNat_ofNat]
  omega

theorem decode_mkPacket (op : BitVec 8) (a b : Word) : decode (mkPacket op a b) = decodeFields op a b := by
  simp [decode]

end Sys2Proof
end

