-- ==== Sys2Proof/Laws/PerInstr.lean ====
section
/-! SUPPORT. The family `OpcodeIsLegal`: the packet that encodes a command passes the check on packets. One lemma for each
constructor. -/

namespace Sys2Proof.Laws.OpcodeIsLegal

/-- The opcode of the command's encoding is in the opcode map (30_encoding.md R75). -/
def Statement (i : Instr) : Prop := packetWf (encode i) = true

theorem of_mkPacket (op : BitVec 8) (a b : Word) (h : legalOpcodes.contains op = true) :
    packetWf (mkPacket op a b) = true := by
  have e := packetOp_mkPacket op a b
  unfold packetOp at e
  rw [packetWf, e]
  exact h

theorem init (seed : Word) : Statement (.init seed) := of_mkPacket _ _ _ (by decide)
theorem nextu32 : Statement (.nextu32) := of_mkPacket _ _ _ (by decide)
theorem nextint0 : Statement (.nextint0) := of_mkPacket _ _ _ (by decide)
theorem nextint1 (bound : Word) : Statement (.nextint1 bound) := of_mkPacket _ _ _ (by decide)
theorem nextint2 (min max : Word) : Statement (.nextint2 min max) := of_mkPacket _ _ _ (by decide)
theorem nextflt0 : Statement (.nextflt0) := of_mkPacket _ _ _ (by decide)
theorem nextflt1 (bound : Word) : Statement (.nextflt1 bound) := of_mkPacket _ _ _ (by decide)
theorem nextflt2 (min max : Word) : Statement (.nextflt2 min max) := of_mkPacket _ _ _ (by decide)
theorem perm : Statement (.perm) := of_mkPacket _ _ _ (by decide)
theorem permn (n : Word) : Statement (.permn n) := of_mkPacket _ _ _ (by decide)
theorem shuf : Statement (.shuf) := of_mkPacket _ _ _ (by decide)
theorem wchi : Statement (.wchi) := of_mkPacket _ _ _ (by decide)
theorem wche : Statement (.wche) := of_mkPacket _ _ _ (by decide)
theorem wre (index word : Word) : Statement (.wre index word) := of_mkPacket _ _ _ (by decide)
theorem rde (index : Word) : Statement (.rde index) := of_mkPacket _ _ _ (by decide)
theorem wrw (index word : Word) : Statement (.wrw index word) := of_mkPacket _ _ _ (by decide)
theorem rdw (index : Word) : Statement (.rdw index) := of_mkPacket _ _ _ (by decide)
theorem rdo (index : Word) : Statement (.rdo index) := of_mkPacket _ _ _ (by decide)
theorem setlen (n : Word) : Statement (.setlen n) := of_mkPacket _ _ _ (by decide)
theorem setwlen (n : Word) : Statement (.setwlen n) := of_mkPacket _ _ _ (by decide)
theorem getlen : Statement (.getlen) := of_mkPacket _ _ _ (by decide)
theorem getwlen : Statement (.getwlen) := of_mkPacket _ _ _ (by decide)
theorem getolen : Statement (.getolen) := of_mkPacket _ _ _ (by decide)

end Sys2Proof.Laws.OpcodeIsLegal
end

