-- ==== Sys2Proof/Laws/Sampling.lean ====
section
/-! SUPPORT. What a draw, a permutation and the buffer commands can do, said once for each. -/

namespace Sys2Proof.Machine

/-- A draw moves `STATE` and nothing else. -/
theorem nextU32_state (s : State) : (nextU32 s).2 = { s with lcgState := lcg s.lcgState s.mult s.incr } := rfl

/-- Which outputs two states draw depends on their `STATE` alone. -/
theorem nextIntBound_congr (m : Nat) (s t : State) (h : t.lcgState = s.lcgState) :
    (nextIntBound m t).1 = (nextIntBound m s).1 := by
  simp [nextIntBound, h]

theorem nextIntBound_lt (m : Nat) (s : State) (h : 0 < m) : (nextIntBound m s).1 < m := Nat.mod_lt _ h

/-- The permutation loop moves `STATE` and nothing else. -/
theorem permuteLoop_state (k : Nat) (work : List Word) (s : State) :
    (permuteLoop k work s).2 = { s with lcgState := (permuteLoop k work s).2.lcgState } := by
  induction k generalizing work s with
  | zero => rfl
  | succ k ih =>
    simp only [permuteLoop]
    rw [ih]
    rfl

/-- The permutation loop keeps the number of words. -/
theorem permuteLoop_length (k : Nat) (work : List Word) (s : State) (h : work.length = k + 1) :
    (permuteLoop k work s).1.length = work.length := by
  induction k generalizing work s with
  | zero => rfl
  | succ k ih =>
    have hd := nextIntBound_lt work.length s (by omega)
    have hl : (work.eraseIdx (nextIntBound work.length s).1).length = k + 1 := by
      rw [List.length_eraseIdx, if_pos hd]; omega
    simp only [permuteLoop, List.length_cons]
    rw [ih _ _ hl]
    omega

theorem permute_length (l : List Word) (s : State) : (permute l s).1.length = l.length := by
  by_cases h : l = []
  · subst h; rfl
  · exact permuteLoop_length _ l s (by have := List.length_pos_iff.2 h; omega)

/-- What a word reads as after a permutation has been written to a buffer. -/
theorem memRead_permuted (sp sp' : Space) (i : Nat) (l out : List Word) (s : State) :
    memRead sp' i (memWriteList sp out (permute l s).2) =
      if sp' = sp then (out[i]?).getD (memRead sp' i s) else memRead sp' i s := by
  rw [memRead_memWriteList, memRead_congr sp' i s (permute l s).2] <;> rw [permute, permuteLoop_state]

/-- Every field but `STATE` and the memory is as before when a permutation has been written to a buffer. -/
theorem memWriteList_permute (sp : Space) (l out : List Word) (s : State) :
    memWriteList sp out (permute l s).2 =
      { s with lcgState := (permute l s).2.lcgState, mem := (memWriteList sp out (permute l s).2).mem } := by
  have h := memWriteList_eq sp out (permute l s).2
  have hp : (permute l s).2 = { s with lcgState := (permute l s).2.lcgState } := permuteLoop_state _ l s
  generalize memWriteList sp out (permute l s).2 = m at *
  rw [h]
  generalize (permute l s).2 = t at *
  rw [hp]

/-- A host write at an index of the buffer. -/
theorem hostWrite_of_lt (sp : Space) (index word : Word) (s : State) (h : index.toNat < s.nMax.toNat) :
    hostWrite sp index word s = respond 0 (memWrite sp index.toNat word s) := by
  simp [hostWrite, runCommand, firstFault, badIndex, uval, Nat.not_le.2 h]

/-- A host write at an index past the buffer. -/
theorem hostWrite_of_ge (sp : Space) (index word : Word) (s : State) (h : s.nMax.toNat ≤ index.toNat) :
    hostWrite sp index word s = raiseFault .badIndex s := by
  simp [hostWrite, runCommand, firstFault, badIndex, uval, h]

/-- A host read at an index of the buffer. -/
theorem hostRead_of_lt (sp : Space) (index : Word) (s : State) (h : index.toNat < s.nMax.toNat) :
    hostRead sp index s = respond (memRead sp index.toNat s) s := by
  simp [hostRead, runCommand, firstFault, badIndex, uval, Nat.not_le.2 h]

/-- A host read at an index past the buffer. -/
theorem hostRead_of_ge (sp : Space) (index : Word) (s : State) (h : s.nMax.toNat ≤ index.toNat) :
    hostRead sp index s = raiseFault .badIndex s := by
  simp [hostRead, runCommand, firstFault, badIndex, uval, h]

/-- No command stops the machine: `exec` always answers a next state. -/
theorem exec_next (i : Instr) (s : State) : ∃ t, exec i s = .next t := by
  cases i <;> exact ⟨_, rfl⟩

end Sys2Proof.Machine
end

