-- ==== Sys2Proof/Tests/Slice0.lean ====
section
/-! SUPPORT. Tests of one step each, with expected results from 95_test_vectors.md and 30_encoding.md (the vector is named at
each test), the smoke tests of the checks, and for each obligation with hypotheses a witness that meets them. -/

namespace Sys2Proof.Tests

open Sys2Proof Sys2Proof.Machine

set_option Elab.async false

/-! ### Helpers -/

/-- State S42 of 95_test_vectors.md in a unit with 8 words a buffer: `EBUF = [0xA, 0xB, 0xC]`, `WBUF = [1.0, 2.0, 3.0]`,
`LEN = WLEN = 3`. -/
def s42 : State where
  lcgState := 0x977AFD8015414A94#64
  mult := 0x5851F42D4C957F2D#64
  incr := 0x14057B7EF767814F#64
  len := 3
  wlen := 3
  olen := 0
  mem := { ebuf := [(0, 0xA#64), (1, 0xB#64), (2, 0xC#64)],
           wbuf := [(0, 0x3FF0000000000000#64), (1, 0x4000000000000000#64), (2, 0x4008000000000000#64)], obuf := [] }
  nMax := 8
  powerUp := 0
  commands := []
  response := none

/-- `s42` with those elements. -/
def withElements (l : List Word) : State :=
  { s42 with len := BitVec.ofNat 32 l.length, mem := { s42.mem with ebuf := l.mapIdx fun i v => (i, v) } }

/-- `s42` with those weights. -/
def withWeights (l : List Word) : State :=
  { s42 with wlen := BitVec.ofNat 32 l.length, mem := { s42.mem with wbuf := l.mapIdx fun i v => (i, v) } }

/-- What an outcome shows: the response's status and value, and `STATE`. -/
def shown : Host.Outcome State Fault Refusal → Option (Status × Word × Word)
  | .next t => t.response.map fun r => (r.status, r.value, t.lcgState)
  | .fault _ => none
  | .refused _ => none

/-- The first `n` words of a buffer after the outcome. -/
def words (sp : Space) (n : Nat) : Host.Outcome State Fault Refusal → List Word
  | .next t => memReadList sp n t
  | .fault _ => []
  | .refused _ => []

/-! ### The checks refuse ill-formed terms. `Instr.wf` has no check to refuse by (30_encoding.md R79). -/

theorem test_packetWf_refuses_reserved : -- R78: opcodes 00, 02, 65, 6D and FF
    packetWf (mkPacket 0x00#8 0 0) = false ∧ packetWf (mkPacket 0x02#8 1 2) = false ∧
    packetWf (mkPacket 0x65#8 0 0) = false ∧ packetWf (mkPacket 0x6D#8 0 0) = false ∧
    packetWf (mkPacket 0xFF#8 0 0) = false := by decide

theorem test_packetWf_accepts_ignored_operands : packetWf 0x10000000000000DEAD000000000000BEEF#136 = true := by decide

theorem test_bufferWf_refuses_falling_indices : Buffer.wf 8 [(1, 0), (0, 0)] = false ∧ Buffer.wf 8 [(1, 0), (1, 0)] = false := by
  decide

theorem test_bufferWf_refuses_index_past_end : Buffer.wf 8 [(8, 0)] = false ∧ Buffer.wf 8 [(7, 0)] = true := by decide

theorem test_memoryWf_refuses_each_bad_buffer :
    Memory.wf 1 ⟨[(1, 0)], [], []⟩ = false ∧ Memory.wf 1 ⟨[], [(1, 0)], []⟩ = false ∧
    Memory.wf 1 ⟨[], [], [(1, 0)]⟩ = false ∧ Memory.wf 1 ⟨[(0, 1)], [(0, 2)], [(0, 3)]⟩ = true := by decide

theorem test_configWf_refuses_no_capacity : ¬ Config.wf ⟨0, 0, 0, 0⟩ ∧ Config.wf ⟨0, 0, 0, 1⟩ := by decide

/-! ### Decoding: words written out from the encodings of 30_encoding.md R71, R75 -/

theorem test_decode_seeding_and_output :
    decode 0x01000000000000002AFFFFFFFFFFFFFFFF#136 = .command (.init 0x2A#64) ∧ -- V-S9: operand b ignored
    decode 0x10000000000000DEAD000000000000BEEF#136 = .command .nextu32 := by decide -- V-N6

theorem test_decode_integers :
    decode 0x2000000000000000000000000000000000#136 = .command .nextint0 ∧
    decode 0x21FFFFFFFFFFFFFFF60000000000000000#136 = .command (.nextint1 0xFFFFFFFFFFFFFFF6#64) ∧
    decode 0x22FFFFFFFFFFFFFFFB0000000000000005#136 = .command (.nextint2 0xFFFFFFFFFFFFFFFB#64 5#64) := by decide

theorem test_decode_floats :
    decode 0x3000000000000000000000000000000000#136 = .command .nextflt0 ∧
    decode 0x3140240000000000000000000000000000#136 = .command (.nextflt1 0x4024000000000000#64) ∧
    decode 0x32BFF00000000000003FF0000000000000#136 = .command (.nextflt2 0xBFF0000000000000#64 0x3FF0000000000000#64) := by
  decide

theorem test_decode_shuffles :
    decode 0x4000000000000000000000000000000000#136 = .command .perm ∧
    decode 0x4100000000000000080000000000000000#136 = .command (.permn 8#64) ∧
    decode 0x4200000000000000000000000000000000#136 = .command .shuf := by decide

theorem test_decode_choices :
    decode 0x5000000000000000000000000000000000#136 = .command .wchi ∧
    decode 0x5100000000000000000000000000000000#136 = .command .wche := by decide

theorem test_decode_buffers :
    decode 0x6000000000000000030000000000001234#136 = .command (.wre 3#64 0x1234#64) ∧
    decode 0x6100000000000000030000000000000000#136 = .command (.rde 3#64) ∧
    decode 0x6200000000000000033FF0000000000000#136 = .command (.wrw 3#64 0x3FF0000000000000#64) ∧
    decode 0x6300000000000000030000000000000000#136 = .command (.rdw 3#64) ∧
    decode 0x6400000000000000030000000000000000#136 = .command (.rdo 3#64) := by decide

theorem test_decode_lengths :
    decode 0x6800000000000000030000000000000000#136 = .command (.setlen 3#64) ∧
    decode 0x6900000000000000030000000000000000#136 = .command (.setwlen 3#64) ∧
    decode 0x6A00000000000000000000000000000000#136 = .command .getlen ∧
    decode 0x6B00000000000000000000000000000000#136 = .command .getwlen ∧
    decode 0x6C00000000000000000000000000000000#136 = .command .getolen := by decide

theorem test_decode_reserved : decode 0x6500000000000000000000000000000000#136 = .reserved 0x65#8 := by decide

theorem test_decodeTableWord :
    decodeTableWord 136 0x6000000000000000030000000000001234 = some (.wre 3#64 0x1234#64) ∧
    decodeTableWord 136 0xFF00000000000000000000000000000000 = none := by decide

theorem test_step_runs_the_presented_packet :
    ∃ t, step (State.reset.withFetchWord 136 0x6C00000000000000000000000000000000) = .next t ∧
      t.response = some ⟨.ok, 0⟩ := ⟨_, rfl, rfl⟩

theorem test_step_reserved : -- R78
    shown (step (s42.withFetchWord 136 0xFF00000000000000000000000000000000)) =
      some (.badCommand, 0#64, 0x977AFD8015414A94#64) := by decide +kernel

/-! ### The generator -/

theorem test_lcg_wraps : lcg 2#64 0x8000000000000001#64 0xFFFFFFFFFFFFFFFF#64 = 1#64 := by decide -- V-L10

theorem test_ror32 : ror32 0x12345678#32 4 = 0x81234567#32 ∧ ror32 0x12345678#32 0 = 0x12345678#32 := by decide -- V-R4, V-R1

theorem test_xshRr : xshRr 0x5851F42D4C957F2D#64 = 0xE4C14788#32 ∧ xshRr 0xFFFFFFFFFFFFFFFF#64 = 0xFFF00001#32 := by
  decide -- V-X11, V-X8

theorem test_init : -- V-S4
    shown (exec (.init 0xCAFEF00DD15EA5E5#64) s42) = some (.ok, 0#64, 0x4D595DF4D0F33173#64) := by decide

theorem test_init_wraps : -- V-S3
    shown (exec (.init 0xFFFFFFFFFFFFFFFF#64) s42) = some (.ok, 0#64, 0xC1B6F9E43824EE05#64) := by decide

theorem test_nextu32 : -- V-N2
    shown (exec .nextu32 s42) = some (.ok, 0xC2F57BD6#64, 0xBAA582B670050953#64) := by decide

theorem test_nextu32_all_ones : -- V-N4
    shown (exec .nextu32 { s42 with lcgState := 0xFFFFFFFFFFFFFFFF#64 }) =
      some (.ok, 0xFFF00001#64, 0xBBB38751AAD20222#64) := by decide

/-! ### The integer sampler -/

theorem test_nextint0 : -- V-I1
    shown (exec .nextint0 s42) = some (.ok, 0xC2F57BD6#64, 0xBAA582B670050953#64) := by decide

theorem test_nextint1_negative : -- V-I4
    shown (exec (.nextint1 0xFFFFFFFFFFFFFFF6#64) s42) = some (.ok, 0xFFFFFFFFFFFFFFFC#64, 0xBAA582B670050953#64) := by
  decide +kernel

theorem test_nextint1_zero : -- V-I10
    shown (exec (.nextint1 0#64) s42) = some (.invalidRange, 0#64, 0x977AFD8015414A94#64) := by decide +kernel

theorem test_nextint2_whole_range : -- V-I18
    shown (exec (.nextint2 0x8000000000000000#64 0x7FFFFFFFFFFFFFFF#64) s42) =
      some (.ok, 0x80000000C2F57BD6#64, 0xBAA582B670050953#64) := by decide +kernel

theorem test_nextint2_compares_signed : -- V-I21
    shown (exec (.nextint2 1#64 0xFFFFFFFFFFFFFFFF#64) s42) = some (.invalidRange, 0#64, 0x977AFD8015414A94#64) := by
  decide +kernel

/-! ### Binary64 and the float sampler -/

theorem test_u32ToUnit : -- V-T6, V-T7
    u32ToUnit 0xFFFFFFFF#32 = 0x3FEFFFFFFFE00000#64 ∧ u32ToUnit 0x12345678#32 = 0x3FB2345678000000#64 := by decide +kernel

theorem test_nextflt0 : -- V-F1
    shown (exec .nextflt0 s42) = some (.ok, 0x3FE85EAF7AC00000#64, 0xBAA582B670050953#64) := by decide +kernel

theorem test_nextflt0_zero : -- V-F22
    shown (exec .nextflt0 { s42 with lcgState := 0 }) = some (.ok, 0#64, 0x14057B7EF767814F#64) := by decide +kernel

theorem test_nextflt1_rounds_to_its_bound : -- V-F8
    shown (exec (.nextflt1 1#64) s42) = some (.ok, 1#64, 0xBAA582B670050953#64) := by decide +kernel

theorem test_nextflt1_minus_zero : -- V-F10
    shown (exec (.nextflt1 0x8000000000000000#64) s42) = some (.invalidRange, 0#64, 0x977AFD8015414A94#64) := by
  decide +kernel

theorem test_nextflt2_rounds_to_its_maximum : -- V-F12
    shown (exec (.nextflt2 0x43B0000000000000#64 0x43B0000000000001#64) s42) =
      some (.ok, 0x43B0000000000001#64, 0xBAA582B670050953#64) := by decide +kernel

theorem test_nextflt2_span_overflows : -- V-F17
    shown (exec (.nextflt2 0xFFEE42D130773B76#64 0x7FEE42D130773B76#64) s42) =
      some (.invalidRange, 0#64, 0x977AFD8015414A94#64) := by decide +kernel

/-! ### The shuffle -/

theorem test_perm : -- V-P5
    words .obuf 5 (exec .perm (withElements [10#64, 20#64, 30#64, 40#64, 50#64])) =
      [20#64, 30#64, 10#64, 50#64, 40#64] := by decide +kernel

theorem test_perm_empty : -- V-P1
    shown (exec .perm (withElements [])) = some (.ok, 0#64, 0x977AFD8015414A94#64) := by decide +kernel

theorem test_permn : -- V-P6
    words .obuf 8 (exec (.permn 8#64) s42) = [6#64, 3#64, 4#64, 0#64, 2#64, 5#64, 1#64, 7#64] := by decide +kernel

theorem test_permn_too_long : -- V-P8, with N_MAX = 8
    shown (exec (.permn 9#64) s42) = some (.badIndex, 0#64, 0x977AFD8015414A94#64) ∧
    shown (exec (.permn 0x100000000#64) s42) = some (.badIndex, 0#64, 0x977AFD8015414A94#64) := by decide +kernel

theorem test_shuf : -- V-P4
    words .ebuf 3 (exec .shuf (withElements [10#64, 11#64, 12#64])) = [12#64, 11#64, 10#64] ∧
    shown (exec .shuf (withElements [10#64, 11#64, 12#64])) = some (.ok, 3#64, 0x356F686D393951E6#64) := by decide +kernel

/-! ### The weighted choice -/

theorem test_wchi : -- V-W12
    shown (exec .wchi (withWeights [0x3FB999999999999A#64, 0x3FC999999999999A#64, 0x3FD3333333333333#64])) =
      some (.ok, 2#64, 0xBAA582B670050953#64) := by decide +kernel

theorem test_wchi_fallback : -- V-W7
    shown (exec .wchi (withWeights [1#64, 1#64])) = some (.ok, 1#64, 0xBAA582B670050953#64) := by decide +kernel

theorem test_wche : -- V-W14
    shown (exec .wche s42) = some (.ok, 0xC#64, 0xBAA582B670050953#64) := by decide +kernel

theorem test_wche_priority : -- V-W15
    shown (exec .wche (withWeights [])) = some (.emptyInput, 0#64, 0x977AFD8015414A94#64) ∧
    shown (exec .wche (withWeights [0#64, 0#64])) = some (.lengthMismatch, 0#64, 0x977AFD8015414A94#64) ∧
    shown (exec .wche { withWeights [0#64, 0#64] with len := 2 }) = some (.invalidRange, 0#64, 0x977AFD8015414A94#64) := by
  decide +kernel

/-! ### Buffer access, with `N_MAX = 8`: 47_buffer_access.md R240 to R250 -/

theorem test_wre : words .ebuf 3 (exec (.wre 1#64 0x1234#64) s42) = [0xA#64, 0x1234#64, 0xC#64] := by decide +kernel

theorem test_wre_index_on_64_bits :
    shown (exec (.wre 0x100000000#64 1#64) s42) = some (.badIndex, 0#64, 0x977AFD8015414A94#64) := by decide +kernel

theorem test_rde : shown (exec (.rde 2#64) s42) = some (.ok, 0xC#64, 0x977AFD8015414A94#64) := by decide +kernel

theorem test_wrw : words .wbuf 1 (exec (.wrw 0#64 0x7FF8000000000000#64) s42) = [0x7FF8000000000000#64] := by decide +kernel

theorem test_rdw : shown (exec (.rdw 1#64) s42) = some (.ok, 0x4000000000000000#64, 0x977AFD8015414A94#64) := by decide +kernel

theorem test_rdo :
    shown (exec (.rdo 7#64) { s42 with mem := { s42.mem with obuf := [(7, 5#64)] } }) =
      some (.ok, 5#64, 0x977AFD8015414A94#64) ∧
    shown (exec (.rdo 8#64) s42) = some (.badIndex, 0#64, 0x977AFD8015414A94#64) := by decide +kernel

theorem test_setlen_limit_is_inclusive :
    shown (exec (.setlen 8#64) s42) = some (.ok, 0#64, 0x977AFD8015414A94#64) ∧
    shown (exec (.setlen 9#64) s42) = some (.badIndex, 0#64, 0x977AFD8015414A94#64) := by decide +kernel

theorem test_setwlen_limit_is_inclusive :
    shown (exec (.setwlen 8#64) s42) = some (.ok, 0#64, 0x977AFD8015414A94#64) ∧
    shown (exec (.setwlen 0x100000001#64) s42) = some (.badIndex, 0#64, 0x977AFD8015414A94#64) := by decide +kernel

theorem test_get_lengths :
    shown (exec .getlen { s42 with len := 5, wlen := 6, olen := 7 }) = some (.ok, 5#64, 0x977AFD8015414A94#64) ∧
    shown (exec .getwlen { s42 with len := 5, wlen := 6, olen := 7 }) = some (.ok, 6#64, 0x977AFD8015414A94#64) ∧
    shown (exec .getolen { s42 with len := 5, wlen := 6, olen := 7 }) = some (.ok, 7#64, 0x977AFD8015414A94#64) := by
  decide

/-! ### The assembler: 30_encoding.md R80 -/

theorem test_assemble_hexadecimal_float : -- V-F8
    assembleLine "NEXTFLT1 0x0000000000000001".toList = some [0x3100000000000000010000000000000000#136] := by decide +kernel

theorem test_assemble_ends_literal_with_f : -- R80: the f trails the literal
    assembleLine "NEXTFLT1 10f.".toList = none ∧ assembleLine "NEXTFLT1 10.0".toList = none := by decide +kernel

theorem test_assemble_rounds_decimals : -- the word of 0.1, V-W12
    assembleLine "WRW 0, 0.1f".toList = some [0x6200000000000000003FB999999999999A#136] := by decide +kernel

/-! ### Witnesses: for each obligation, terms that meet its hypotheses, clause by clause -/

theorem test_s42_is_S42 : AtS42 s42 := ⟨rfl, rfl, rfl⟩

theorem test_witness_CommandsSurviveEncoding :
    (Instr.rde 3#64).wf = true ∧ decode 0x6100000000000000030000000000000000#136 = .command (.rde 3#64) ∧
    packetOp 0x6100000000000000030000000000000000#136 ∉ opcodesUsingB ∧
    packetB 0x6100000000000000030000000000000000#136 = 0 ∧
    packetOp 0x1000000000000000000000000000000000#136 ∉ opcodesUsingA := by decide

theorem test_witness_UnusedOperandsAreIgnored :
    0x10#8 ∉ opcodesUsingA ∧ 0x10#8 ∉ opcodesUsingB ∧ 0x10#8 ∈ legalOpcodes ∧ (1#64 : Word) ≠ 2#64 := by decide

theorem test_witness_ReservedOpcodesFaultWithBadCommand :
    packetOp (mkPacket 0x6D#8 7 7) ∉ legalOpcodes ∧
    { s42 with commands := [mkPacket 0x6D#8 7 7] }.commands = [mkPacket 0x6D#8 7 7] := by decide

theorem test_witness_StepExecutesTheDecodedCommand :
    { s42 with commands := [encode (.rde 3#64)] }.commands = [encode (.rde 3#64)] ∧
    decode (encode (.rde 3#64)) = .command (.rde 3#64) ∧ (Instr.rde 3#64).wf = true := by decide

theorem test_witness_StepWithoutCommandIsIdle : State.reset.commands = [] := rfl

theorem test_witness_EveryPacketIsAnsweredOnce :
    { s42 with commands := [encode .nextu32, encode .getlen] }.commands = [encode .nextu32, encode .getlen] := rfl

theorem test_witness_RotateRightMovesEveryBit : 0 < 32 ∧ 31 < 32 := by decide

theorem test_witness_OutputPermutationFollowsItsFormula : -- V-X1, V-X3: they differ in bits 26:0 only
    (0#64).toNat / 2 ^ 27 = (0x07FFFFFF#64).toNat / 2 ^ 27 := by decide

theorem test_witness_NextU32RespondsTheOutput : { s42 with lcgState := 0 }.lcgState = 0 ∧ AtS42 s42 := ⟨rfl, rfl, rfl, rfl⟩

theorem test_witness_InitSeedsTheState : DefaultConstants s42 := ⟨rfl, rfl⟩

theorem test_witness_InitIsInjectiveAndForgetful :
    ∃ t t', exec (.init 1#64) s42 = .next t ∧ exec (.init 1#64) { s42 with lcgState := 0 } = .next t' ∧
      s42.mult.toNat % 2 = 1 ∧ t.lcgState = t'.lcgState := ⟨_, _, rfl, rfl, by decide, rfl⟩

theorem test_witness_NextInt1ReducesByTheBound :
    (0#64).toInt = 0 ∧ 0 < (1#64).toInt ∧ 0 < (0x7FFFFFFFFFFFFFFF#64).toInt ∧
    (0xFFFFFFFFFFFFFFFF#64).toInt < 0 ∧ (0x8000000000000000#64).toInt < 0 := by decide

theorem test_witness_NextInt2ReducesIntoTheRange :
    (7#64).toInt ≤ (7#64).toInt ∧ (8#64).toInt = (7#64).toInt + 1 ∧
    (0x8000000000000000#64).toInt = -2 ^ 63 ∧ (0x7FFFFFFFFFFFFFFF#64).toInt = 2 ^ 63 - 1 ∧
    (0x8000000000000000#64).toInt < (0x7FFFFFFFFFFFFFFF#64).toInt := by decide

theorem test_witness_ModuloBiasIsAsCounted :
    (0 < 3 ∧ 3 ≤ 2 ^ 32 ∧ 0 < 3 ∧ 0 < 2 ^ 32 % 3 ∧ 2 < 3 ∧ ¬ 2 < 2 ^ 32 % 3) ∧ (2 ^ 32 - 1 < 2 ^ 32 ∧ 2 ^ 32 ≤ 2 ^ 32) ∧
    2 ^ 32 < 2 ^ 32 + 1 := by decide

theorem test_witness_FiniteValuesAreExactlyTheDyadics :
    f64Finite 0x7FEFFFFFFFFFFFFF#64 = true ∧ 2 ^ 53 - 1 < 2 ^ 53 ∧ 2045 ≤ 2045 := by decide

/-- One below the threshold over 2, and a tie between two subnormals: 3/2 units. -/
theorem test_witness_RoundingIsToNearestTiesToEven :
    overflowUnits * 2 - 1 < overflowUnits * 2 ∧ 3 < overflowUnits * 2 ∧ f64Finite 1#64 = true ∧
    |(f64Mag (roundNearest false 3 2) : Int) * 2 - (3 : Nat)| = |(f64Mag 1#64 : Int) * 2 - (3 : Nat)| ∧
    f64Mag 1#64 ≠ f64Mag (roundNearest false 3 2) := by decide +kernel

theorem test_witness_RoundingOverflowsAndKeepsRepresentable :
    overflowUnits * 1 ≤ overflowUnits ∧ f64Finite 0x7FEFFFFFFFFFFFFF#64 = true ∧ 0 < 1 := by decide +kernel

theorem test_witness_RoundingIsMonotonic :
    0 < 2 ∧ 0 < 1 ∧ 3 * 1 ≤ 2 * 2 ∧ f64Finite (roundNearest true 2 1) = true := by decide +kernel

theorem test_witness_ArithmeticRoundsOnceAndSignsZeros :
    (f64Finite 1#64 = true ∧ f64Finite 0#64 = true ∧ f64Mag 1#64 * f64Mag 0#64 = 0) ∧
    f64Val 0x8000000000000000#64 + f64Val 0#64 = 0 ∧ 0 < f64Val 1#64 + f64Val 0#64 ∧
    f64Val 0x8000000000000001#64 + f64Val 0#64 < 0 ∧ f64IsNaN 0x7FF0000000000001#64 = true ∧
    f64IsInf 0x7FF0000000000000#64 = true ∧ f64IsInf 0xFFF0000000000000#64 = true ∧
    f64Sign 0x7FF0000000000000#64 ≠ f64Sign 0xFFF0000000000000#64 ∧
    (f64IsNaN 0#64 = false ∧ f64IsZero 0#64 = true) ∧ f64IsNaN 1#64 = false ∧ f64IsZero 1#64 = false := by decide +kernel

theorem test_witness_UnitConversionIsExact :
    (2 ^ 0 ≤ (1#32).toNat ∧ (1#32).toNat < 2 ^ (0 + 1)) ∧
    (2 ^ 31 ≤ (0xFFFFFFFF#32).toNat ∧ (0xFFFFFFFF#32).toNat < 2 ^ (31 + 1)) := by decide

theorem test_witness_NextFlt1ScalesTheBase :
    f64Finite 0x7FF0000000000000#64 = false ∧ f64IsZero 0x8000000000000000#64 = true ∧
    (f64Finite 1#64 = true ∧ f64IsZero 1#64 = false ∧ 0 < f64Val 1#64) ∧ 1 ≤ f64Exp 0x0010000000000000#64 ∧
    (f64Finite 0x8000000000000001#64 = true ∧ f64IsZero 0x8000000000000001#64 = false ∧ f64Val 0x8000000000000001#64 < 0) ∧
    nextOutput { s42 with lcgState := 0 } = 0 := by decide +kernel

theorem test_witness_NextFlt2ScalesAndShiftsTheBase :
    (¬ f64Val 0x8000000000000000#64 < f64Val 0#64) ∧
    f64Finite (fsub 0x7FEFFFFFFFFFFFFF#64 0xFFEFFFFFFFFFFFFF#64) = false ∧
    (f64Finite 0#64 = true ∧ f64Finite 1#64 = true ∧ f64Val 0#64 < f64Val 1#64 ∧ f64Finite (fsub 1#64 0#64) = true) := by
  decide +kernel

theorem test_witness_PermuteTakesTheDrawnWordFirst : [7#64].length ≤ 1 ∧ 2 ≤ [7#64, 8#64].length := by decide

theorem test_witness_PermFillsTheOutputBuffer :
    AtS42 (withElements [10#64, 20#64, 30#64, 40#64, 50#64]) ∧
    elementList (withElements [10#64, 20#64, 30#64, 40#64, 50#64]) = [10#64, 20#64, 30#64, 40#64, 50#64] :=
  ⟨⟨rfl, rfl, rfl⟩, by decide +kernel⟩

theorem test_witness_PermNFillsTheOutputBuffer :
    s42.nMax.toNat < (9#64).toNat ∧ (8#64).toNat ≤ s42.nMax.toNat ∧ AtS42 s42 := ⟨by decide, by decide, rfl, rfl, rfl⟩

theorem test_witness_ShufPermutesInPlace :
    (withElements [7#64]).len.toNat ≤ 1 ∧ AtS42 (withElements [10#64, 11#64, 12#64]) ∧
    (∃ t', exec .perm (withElements [10#64, 11#64, 12#64]) = .next t') ∧
    elementList (withElements [10#64, 11#64, 12#64]) = [10#64, 11#64, 12#64] :=
  ⟨by decide, ⟨rfl, rfl, rfl⟩, ⟨_, rfl⟩, by decide +kernel⟩

theorem test_witness_ScanReturnsTheFirstExceedingSum : -- V-W1: position 2
    [0x3FF0000000000000#64, 0x4000000000000000#64, 0x4008000000000000#64] ≠ [] ∧
    cumScan 0x401247039C100000#64 [0x3FF0000000000000#64, 0x4000000000000000#64, 0x4008000000000000#64] = 2 := by
  decide +kernel

theorem test_witness_WchiRespondsTheChosenIndex :
    (withWeights []).wlen = 0 ∧ badTotal (total (weightList (withWeights [0#64, 0#64]))) ∧
    ¬ badTotal (total (weightList (withWeights [0x4014000000000000#64]))) ∧
    AtS42 (withWeights [0x4014000000000000#64]) ∧
    weightList (withWeights [0x4014000000000000#64]) = [0x4014000000000000#64] := by
  refine ⟨by decide, ?_, ?_, ⟨rfl, rfl, rfl⟩, by decide +kernel⟩
  · exact .inl (by decide +kernel)
  · unfold badTotal; decide +kernel

theorem test_witness_WcheRespondsTheChosenElement :
    (withWeights []).wlen = 0 ∧ (withWeights [0#64, 0#64]).len ≠ (withWeights [0#64, 0#64]).wlen ∧
    badTotal (total (weightList (withWeights [0#64, 0#64, 0#64]))) ∧
    (withWeights [0#64, 0#64, 0#64]).len = (withWeights [0#64, 0#64, 0#64]).wlen ∧
    s42.wlen ≠ 0 ∧ s42.len = s42.wlen ∧ ¬ badTotal (total (weightList s42)) ∧
    weightList s42 = [0x3FF0000000000000#64, 0x4000000000000000#64, 0x4008000000000000#64] ∧
    elementList s42 = [0xA#64, 0xB#64, 0xC#64] := by
  refine ⟨by decide, by decide, .inl (by decide +kernel), by decide, by decide, by decide, ?_, by decide +kernel,
    by decide +kernel⟩
  unfold badTotal; decide +kernel

theorem test_witness_FallbackIsNotReachedForNormalTotals : -- a weight -0, the least normal total, a total `r` rounds back to
    fmul (u32ToUnit 0xC2F57BD6#32) (total [1#64]) = total [1#64] ∧
    (AtS42 (withWeights [1#64]) ∧ weightList (withWeights [1#64]) = [1#64]) ∧
    (AtS42 (withWeights [1#64, 1#64]) ∧ weightList (withWeights [1#64, 1#64]) = [1#64, 1#64]) ∧
    (∀ w ∈ [0x8000000000000000#64, 0x0010000000000000#64], f64Finite w = true ∧ 0 ≤ f64Val w) ∧
    f64Finite (total [0x8000000000000000#64, 0x0010000000000000#64]) = true ∧
    1 ≤ f64Exp (total [0x8000000000000000#64, 0x0010000000000000#64]) := by
  refine ⟨by decide +kernel, ⟨⟨rfl, rfl, rfl⟩, by decide +kernel⟩, ⟨⟨rfl, rfl, rfl⟩, by decide +kernel⟩, fun w hw => ?_,
    by decide +kernel, by decide +kernel⟩
  rcases List.mem_pair.1 hw with rfl | rfl <;> decide +kernel

theorem test_witness_HostWritesStoreOneWord : s42.nMax.toNat ≤ (8#64).toNat ∧ (7#64).toNat < s42.nMax.toNat := by decide

theorem test_witness_HostReadsRespondOneWord : s42.nMax.toNat ≤ (8#64).toNat ∧ (7#64).toNat < s42.nMax.toNat := by decide

theorem test_witness_LengthsAreSetUpToCapacity :
    s42.nMax.toNat < (9#64).toNat ∧ (8#64).toNat ≤ s42.nMax.toNat ∧ (0#64).toNat ≤ s42.nMax.toNat := by decide

/-- A write at another index stands between the write and the read. -/
theorem test_witness_ReadReturnsTheLatestWrite :
    (7#64).toNat < s42.nMax.toNat ∧ ¬ writesEbufWord (7#64).toNat (.wre 6#64 2#64) ∧
    ¬ writesWbufWord (7#64).toNat (.wrw 6#64 2#64) ∧
    { s42 with commands := encode (.wre 7#64 1#64) :: ([Instr.wre 6#64 2#64].map encode ++ [encode (.rde 7#64)]) }.commands =
      encode (.wre 7#64 1#64) :: ([Instr.wre 6#64 2#64].map encode ++ [encode (.rde 7#64)]) ∧
    { s42 with commands := encode (.wrw 7#64 1#64) :: ([Instr.wrw 6#64 2#64].map encode ++ [encode (.rdw 7#64)]) }.commands =
      encode (.wrw 7#64 1#64) :: ([Instr.wrw 6#64 2#64].map encode ++ [encode (.rdw 7#64)]) := by
  refine ⟨by decide, ?_, ?_, rfl, rfl⟩
  · rintro (h | ⟨_, _, h, e⟩) <;> cases h
    revert e; decide
  · rintro ⟨_, _, h, e⟩; cases h
    revert e; decide

theorem test_witness_LoadELoadsTheElements :
    (List.replicate 8 5#64).length ≤ s42.nMax.toNat ∧
    { s42 with commands := (expandLoadE (List.replicate 8 5#64)).map encode }.commands =
      (expandLoadE (List.replicate 8 5#64)).map encode := ⟨by decide, rfl⟩

theorem test_witness_FaultingCommandsChangeNothing :
    (∃ t, exec (.rde 8#64) s42 = .next t ∧ t.response = some ⟨.badIndex, 0⟩ ∧ Status.badIndex ≠ .ok) ∧
    ∃ t, step { s42 with commands := [mkPacket 0xFF#8 0 0] } = .next t ∧ t.response = some ⟨.badCommand, 0⟩ ∧
      Status.badCommand ≠ .ok :=
  ⟨⟨_, rfl, rfl, by decide⟩, _, rfl, rfl, by decide⟩

theorem test_witness_CommandsMakeTheirListedDraws :
    (∃ t r, exec .shuf s42 = .next t ∧ t.response = some r ∧ r.status = .ok) ∧
    (∃ t r, exec (.permn 9#64) s42 = .next t ∧ t.response = some r ∧ r.status ≠ .ok) ∧
    packetOp (mkPacket 0xFF#8 0 0) ∉ legalOpcodes ∧ ∃ t, step { s42 with commands := [mkPacket 0xFF#8 0 0] } = .next t :=
  ⟨⟨_, _, rfl, rfl, rfl⟩, ⟨_, _, rfl, rfl, by decide⟩, by decide, _, rfl⟩

theorem test_witness_EachRegisterHasItsOwnWriters :
    (∃ t, exec .nextu32 s42 = .next t) ∧ (∀ n, Instr.nextu32 ≠ .setlen n) ∧ (∀ n, Instr.nextu32 ≠ .setwlen n) ∧
    ¬ writesObuf .nextu32 ∧ ¬ writesEbuf .nextu32 ∧ ¬ writesWbuf .nextu32 := by
  refine ⟨⟨_, rfl⟩, fun n => Instr.noConfusion, fun n => Instr.noConfusion, ?_, ?_, ?_⟩
  · rintro (h | ⟨_, h⟩) <;> cases h
  · rintro (h | ⟨_, _, h⟩) <;> cases h
  · rintro ⟨_, _, h⟩; cases h

theorem test_witness_StateIsSeenOnlyThroughDraws :
    drawCount (withElements [7#64]) .perm = 0 ∧ ∃ t, exec .perm (withElements [7#64]) = .next t := ⟨by decide, _, rfl⟩

theorem test_witness_StepKeepsTheInvariant :
    Inv { s42 with commands := [encode .shuf] } ∧ ∃ t, step { s42 with commands := [encode .shuf] } = .next t :=
  ⟨⟨by decide, by decide, by decide, by decide, by decide, fun _ h => by cases h⟩, _, rfl⟩

theorem test_witness_ResetMeetsTheInvariant : Config.wf ⟨0, 0, 0, 1⟩ := by decide

theorem test_witness_UnwrittenWordsKeepTheirFreeContent :
    (0#64).toNat < (⟨0, 0, 0, 1⟩ : Config).nMax.toNat ∧ ¬ writesEbufWord (0#64).toNat (.wre 1#64 2#64) ∧
    ¬ writesWbufWord (0#64).toNat (.wrw 1#64 2#64) ∧ ¬ writesObuf .nextu32 := by
  refine ⟨by decide, ?_, ?_, ?_⟩
  · rintro (h | ⟨_, _, h, e⟩) <;> cases h
    revert e; decide
  · rintro ⟨_, _, h, e⟩; cases h
    revert e; decide
  · rintro (h | ⟨_, h⟩) <;> cases h

end Sys2Proof.Tests
end

section
/-! PROOFS of the family 00_scope: what one step is, case by case of the host's next packet, and that every packet is
answered. -/

namespace Sys2Proof

/-- The encoding of a command decodes to it (30_encoding.md R75, R80). -/
@[simp] theorem decode_encode (i : Instr) : decode (encode i) = .command i := by
  cases i <;> exact decode_mkPacket _ _ _

end Sys2Proof

namespace Sys2Proof.Machine

/-! ### The cases of a step -/

theorem step_of_no_commands (s : State) (h : s.commands = []) : step s = .next (idle s) := by
  simp [step, takeCommand_nil s h]

theorem step_of_command (s : State) (p : Packet) (rest : List Packet) (i : Instr) (h : s.commands = p :: rest)
    (hp : decode p = .command i) : step s = exec i { s with commands := rest } := by
  simp [step, takeCommand_cons s p rest h, hp]

theorem step_of_reserved (s : State) (p : Packet) (rest : List Packet) (op : BitVec 8) (h : s.commands = p :: rest)
    (hp : decode p = .reserved op) : step s = .next (rejectPacket { s with commands := rest }) := by
  simp [step, takeCommand_cons s p rest h, hp]

/-- A step on the packet that `withFetchWord` presents. -/
theorem step_withFetchWord_encode (s : State) (i : Instr) :
    step (s.withFetchWord 136 (encode i).toNat) = exec i { s with commands := s.commands.tail } :=
  step_of_command _ (encode i) s.commands.tail i (by simp [State.withFetchWord]) (decode_encode i)

/-- Settles O7: the two cases of a step whose packet decodes to a command. -/
theorem stepExecutesTheDecodedCommand : Obligations.StepExecutesTheDecodedCommand :=
  ⟨step_of_command, fun s i _ => step_withFetchWord_encode s i⟩

/-- The response port is no part of what `NothingMoves` compares. -/
theorem nothingMoves_setResponse (s : State) (r : Option Response) : NothingMoves s { s with response := r } where
  constants := ⟨rfl, rfl, rfl, rfl, rfl⟩
  lengths := ⟨rfl, rfl, rfl⟩
  buffers := fun _ _ => rfl
  lcgState := rfl

/-- Settles O8: a step without a packet is `idle`, which writes the response port alone. -/
theorem stepWithoutCommandIsIdle : Obligations.StepWithoutCommandIsIdle := fun s h =>
  ⟨idle s, step_of_no_commands s h, idle_response s, nothingMoves_setResponse s none⟩

/-! ### Every command is answered -/

/-- `t` carries a response to a command executed in `s`, of value 0 when it is a fault, and the host's packets still to come
are those of `s` (00_scope.md R15; 30_encoding.md R73). -/
def Answered (s t : State) : Prop :=
  t.commands = s.commands ∧ ∃ r, t.response = some r ∧ (r.status ≠ .ok → r.value = 0)

theorem respond_answered (v : Word) (s t : State) (h : t.commands = s.commands) : Answered s (respond v t) :=
  ⟨h, ⟨.ok, v⟩, rfl, fun hne => absurd rfl hne⟩

theorem raiseFault_answered (f : Status) (s : State) : Answered s (raiseFault f s) :=
  ⟨rfl, ⟨f, 0⟩, rfl, fun _ => rfl⟩

/-- A command with checks is answered by its fault or, when its effect answers it, by its effect. -/
theorem runCommand_answered (checks : List (Bool × Status)) (effect : State → State) (s : State)
    (h : Answered s (effect s)) : Answered s (runCommand checks effect s) := by
  obtain ⟨f, -, hf⟩ | ⟨-, hn⟩ := runCommand_cases checks effect s
  · rw [hf]; exact raiseFault_answered f s
  · rw [hn]; exact h

theorem hostWrite_answered (sp : Space) (index word : Word) (s : State) : Answered s (hostWrite sp index word s) :=
  runCommand_answered _ _ s (respond_answered _ s _ rfl)

theorem hostRead_answered (sp : Space) (index : Word) (s : State) : Answered s (hostRead sp index s) :=
  runCommand_answered _ _ s (respond_answered _ s _ rfl)

@[simp] theorem memWriteList_permute_commands (sp : Space) (l out : List Word) (s : State) :
    (memWriteList sp out (permute l s).2).commands = s.commands := by
  rw [memWriteList_permute]

/-- Whatever a command does, it answers, and takes none of the packets still to come. -/
theorem exec_answered (i : Instr) (s : State) : ∃ t, exec i s = .next t ∧ Answered s t := by
  cases i with
  | init | nextu32 | nextint0 | nextflt0 | getlen | getwlen | getolen => exact ⟨_, rfl, respond_answered _ s _ rfl⟩
  | nextint1 | nextint2 | nextflt1 | nextflt2 | wchi | wche | setlen | setwlen =>
    exact ⟨_, rfl, runCommand_answered _ _ s (respond_answered _ s _ rfl)⟩
  | perm | shuf => exact ⟨_, rfl, respond_answered _ s _ (memWriteList_permute_commands _ _ _ s)⟩
  | permn =>
    exact ⟨_, rfl, runCommand_answered _ _ s (respond_answered _ s _ (memWriteList_permute_commands _ _ _ s))⟩
  | wre | wrw => exact ⟨_, rfl, hostWrite_answered _ _ _ s⟩
  | rde | rdw | rdo => exact ⟨_, rfl, hostRead_answered _ _ s⟩

/-- A step takes the first packet and answers it, whether it decodes to a command or has a reserved opcode. -/
theorem step_answered (s : State) (p : Packet) (rest : List Packet) (h : s.commands = p :: rest) :
    ∃ t, step s = .next t ∧ Answered { s with commands := rest } t := by
  cases hp : decode p with
  | command i =>
    rw [step_of_command s p rest i h hp]
    exact exec_answered i _
  | reserved op => exact ⟨_, step_of_reserved s p rest op h hp, raiseFault_answered .badCommand _⟩

/-- Settles O9, by `step_answered`: a step answers the packet it takes, whatever the packet decodes to. -/
theorem everyPacketIsAnsweredOnce : Obligations.EveryPacketIsAnsweredOnce := by
  intro s p rest h
  obtain ⟨t, hstep, hcommands, r, hresponse, hvalue⟩ := step_answered s p rest h
  exact ⟨t, r, hstep, hresponse, hcommands, hvalue⟩

end Sys2Proof.Machine
end

section
/-! PROOFS of the family 10_state: what each command can move, said once for all commands, and what follows from it: who
writes which register and word, the invariant, that neither the response port nor, without a draw, `STATE` is read, and that a
word keeps its content until it is written. -/

namespace Sys2Proof.Machine

/-! ### Writing a list and permuting, in states that differ in one register -/

/-- The memory after a list has been written depends on the memory before it alone. -/
theorem memWriteFrom_mem_congr (sp : Space) (k : Nat) (l : List Word) (s t : State) (h : t.mem = s.mem) :
    (memWriteFrom sp k l t).mem = (memWriteFrom sp k l s).mem := by
  induction l generalizing k s t with
  | nil => exact h
  | cons v vs ih => exact ih (k + 1) _ _ (by simp only [memWrite_mem, h])

theorem memWriteList_congr (sp : Space) (l : List Word) (s t : State) (h : t.mem = s.mem) :
    memWriteList sp l t = { t with mem := (memWriteList sp l s).mem } := by
  rw [memWriteList_eq, memWriteList, memWriteFrom_mem_congr sp 0 l s t h, memWriteList]

theorem memWriteList_setResponse (sp : Space) (l : List Word) (s : State) (r : Option Response) :
    memWriteList sp l { s with response := r } = { memWriteList sp l s with response := r } :=
  (memWriteList_congr sp l s { s with response := r } rfl).trans
    (congrArg (fun m : State => { m with response := r }) (memWriteList_eq sp l s).symm)

theorem memWriteList_setLcgState (sp : Space) (l : List Word) (s : State) (x : Word) :
    memWriteList sp l { s with lcgState := x } = { memWriteList sp l s with lcgState := x } :=
  (memWriteList_congr sp l s { s with lcgState := x } rfl).trans
    (congrArg (fun m : State => { m with lcgState := x }) (memWriteList_eq sp l s).symm)

/-- Writing a permutation moves `STATE`, by the draws, and one buffer. -/
theorem memWriteList_permute_eq (sp : Space) (l out : List Word) (s : State) :
    memWriteList sp out (permute l s).2 =
      { s with lcgState := (permute l s).2.lcgState, mem := (memWriteList sp out s).mem } := by
  have hstate : (permute l s).2 = { s with lcgState := (permute l s).2.lcgState } := permuteLoop_state _ l s
  rw [memWriteList_congr sp out s _ (by rw [hstate])]
  generalize (permute l s).2 = t at hstate ⊢
  rw [hstate]

/-- A list of at most one word is permuted without a draw (45_array_shuffle.md R193). -/
theorem permute_of_length_le_one (l : List Word) (s : State) (h : l.length - 1 = 0) : permute l s = (l, s) := by
  rw [permute, h, permuteLoop]

theorem permuteLoop_setResponse (k : Nat) (work : List Word) (s : State) (r : Option Response) :
    permuteLoop k work { s with response := r } =
      ((permuteLoop k work s).1, { (permuteLoop k work s).2 with response := r }) := by
  induction k generalizing work s with
  | zero => rfl
  | succ k ih =>
    have hdraw : nextIntBound work.length { s with response := r } =
        ((nextIntBound work.length s).1, { (nextIntBound work.length s).2 with response := r }) := rfl
    simp only [permuteLoop, hdraw, ih]

/-- Permuting and writing the permutation neither read nor write the response port. -/
theorem memWriteList_permute_setResponse (sp : Space) (l : List Word) (s : State) (r : Option Response) :
    memWriteList sp (permute l { s with response := r }).1 (permute l { s with response := r }).2 =
      { memWriteList sp (permute l s).1 (permute l s).2 with response := r } := by
  have hperm : permute l { s with response := r } = ((permute l s).1, { (permute l s).2 with response := r }) :=
    permuteLoop_setResponse _ l s r
  rw [hperm]
  exact memWriteList_setResponse sp _ _ r

/-! ### What a command can move -/

/-- What the command `i` can make of the state `s`, with the bounds that its checks leave; not which values are drawn. It
faults, or it answers and may move `STATE`, or it is a command that writes a register or a buffer of its own
(10_state.md R29; 20_memory.md R51). -/
inductive Moves (s : State) : Instr → State → Prop where
  | fault (i : Instr) (f : Status) : Moves s i (raiseFault f s)
  | answer (i : Instr) (x v : Word) : Moves s i (respond v { s with lcgState := x })
  | setlen (n : Word) (h : n.toNat ≤ s.nMax.toNat) : Moves s (.setlen n) (respond 0 { s with len := lengthOf n })
  | setwlen (n : Word) (h : n.toNat ≤ s.nMax.toNat) : Moves s (.setwlen n) (respond 0 { s with wlen := lengthOf n })
  | wre (index word : Word) (h : index.toNat < s.nMax.toNat) :
    Moves s (.wre index word) (respond 0 (memWrite .ebuf index.toNat word s))
  | wrw (index word : Word) (h : index.toNat < s.nMax.toNat) :
    Moves s (.wrw index word) (respond 0 (memWrite .wbuf index.toNat word s))
  | perm (x : Word) (l : List Word) (h : l.length = s.len.toNat) :
    Moves s .perm (respond (zext s.len) { s with lcgState := x, mem := (memWriteList .obuf l s).mem, olen := s.len })
  | permn (n x : Word) (l : List Word) (hn : n.toNat ≤ s.nMax.toNat) (h : l.length = n.toNat) :
    Moves s (.permn n) (respond n { s with lcgState := x, mem := (memWriteList .obuf l s).mem, olen := lengthOf n })
  | shuf (x : Word) (l : List Word) (h : l.length = s.len.toNat) :
    Moves s .shuf (respond (zext s.len) { s with lcgState := x, mem := (memWriteList .ebuf l s).mem })

/-- A command with checks faults, or moves what its effect moves when no check holds. -/
theorem runCommand_moves (i : Instr) (checks : List (Bool × Status)) (effect : State → State) (s : State)
    (h : firstFault checks = none → Moves s i (effect s)) : Moves s i (runCommand checks effect s) := by
  obtain ⟨f, -, hf⟩ | ⟨hnone, hn⟩ := runCommand_cases checks effect s
  · rw [hf]; exact .fault i f
  · rw [hn]; exact h hnone

theorem le_of_badLength_check (n : Word) (s : State) (h : firstFault [(badLength n s, .badIndex)] = none) :
    n.toNat ≤ s.nMax.toNat := by
  have hb : badLength n s = false := by simpa [firstFault_eq_none] using h
  exact Nat.not_lt.1 (of_decide_eq_false hb)

theorem lt_of_badIndex_check (index : Word) (s : State) (h : firstFault [(badIndex index s, .badIndex)] = none) :
    index.toNat < s.nMax.toNat := by
  have hb : badIndex index s = false := by simpa [firstFault_eq_none] using h
  exact Nat.not_le.1 (of_decide_eq_false hb)

theorem hostRead_moves (i : Instr) (sp : Space) (index : Word) (s : State) : Moves s i (hostRead sp index s) :=
  runCommand_moves i _ _ s fun _ => .answer i s.lcgState _

/-- Every command moves only what `Moves` lists for it. -/
theorem exec_moves (i : Instr) (s : State) : ∃ t, exec i s = .next t ∧ Moves s i t := by
  cases i with
  | init | nextu32 | nextint0 | nextflt0 => exact ⟨_, rfl, .answer _ _ _⟩
  | getlen | getwlen | getolen => exact ⟨_, rfl, .answer _ s.lcgState _⟩
  | nextint1 | nextint2 | nextflt1 | nextflt2 | wchi | wche =>
    exact ⟨_, rfl, runCommand_moves _ _ _ s fun _ => .answer _ _ _⟩
  | rde | rdw | rdo => exact ⟨_, rfl, hostRead_moves _ _ _ s⟩
  | setlen n => exact ⟨_, rfl, runCommand_moves _ _ _ s fun h => .setlen n (le_of_badLength_check n s h)⟩
  | setwlen n => exact ⟨_, rfl, runCommand_moves _ _ _ s fun h => .setwlen n (le_of_badLength_check n s h)⟩
  | wre index word => exact ⟨_, rfl, runCommand_moves _ _ _ s fun h => .wre index word (lt_of_badIndex_check index s h)⟩
  | wrw index word => exact ⟨_, rfl, runCommand_moves _ _ _ s fun h => .wrw index word (lt_of_badIndex_check index s h)⟩
  | perm =>
    refine ⟨_, rfl, ?_⟩
    simp only [memWriteList_permute_eq]
    exact .perm _ _ (by simp [permute_length])
  | permn n =>
    refine ⟨_, rfl, runCommand_moves _ _ _ s fun h => ?_⟩
    simp only [memWriteList_permute_eq]
    exact .permn n _ _ (le_of_badLength_check n s h) (by simp [permute_length, indexWords, uval])
  | shuf =>
    refine ⟨_, rfl, ?_⟩
    simp only [memWriteList_permute_eq]
    exact .shuf _ _ (by simp [permute_length])

theorem moves_of_exec (i : Instr) (s t : State) (h : exec i s = .next t) : Moves s i t := by
  obtain ⟨t', ht', hmoves⟩ := exec_moves i s
  cases h.symm.trans ht'
  exact hmoves

/-! ### The invariant -/

theorem Inv.setCommands {s : State} (h : Inv s) (ps : List Packet) : Inv { s with commands := ps } := { h with }

theorem Inv.setLcgState {s : State} (h : Inv s) (x : Word) : Inv { s with lcgState := x } := { h with }

theorem Inv.idle {s : State} (h : Inv s) : Inv (idle s) := { h with response := fun _ hr => nomatch hr }

theorem Inv.respond {s : State} (h : Inv s) (v : Word) : Inv (respond v s) :=
  { h with response := fun _ hr hne => by cases hr; exact absurd rfl hne }

theorem Inv.raiseFault {s : State} (h : Inv s) (f : Status) : Inv (raiseFault f s) :=
  { h with response := fun _ hr _ => by cases hr; rfl }

theorem Inv.setLen {s : State} (h : Inv s) (n : Word32) (hn : n.toNat ≤ s.nMax.toNat) : Inv { s with len := n } :=
  { h with len := hn }

theorem Inv.setWlen {s : State} (h : Inv s) (n : Word32) (hn : n.toNat ≤ s.nMax.toNat) : Inv { s with wlen := n } :=
  { h with wlen := hn }

theorem Inv.setOlen {s : State} (h : Inv s) (n : Word32) (hn : n.toNat ≤ s.nMax.toNat) : Inv { s with olen := n } :=
  { h with olen := hn }

theorem Inv.memWrite {s : State} (h : Inv s) (sp : Space) (i : Nat) (v : Word) (hi : i < s.nMax.toNat) :
    Inv (memWrite sp i v s) :=
  { h with mem := memWrite_wf sp _ i v s h.mem hi }

theorem Inv.setMem_memWriteList {s : State} (h : Inv s) (sp : Space) (l : List Word) (hl : l.length ≤ s.nMax.toNat) :
    Inv { s with mem := (memWriteList sp l s).mem } :=
  { h with mem := memWriteList_wf sp _ l s h.mem hl }

/-- The register that holds an operand within the capacity is within the capacity. -/
theorem lengthOf_le {n : Word} {m : Nat} (h : n.toNat ≤ m) : (lengthOf n).toNat ≤ m := by
  rw [lengthOf, BitVec.toNat_setWidth]
  exact (Nat.mod_le _ _).trans h

/-- What a command can move keeps the invariant: a list that is written is as long as a length that is within the capacity. -/
theorem Moves.inv {s t : State} {i : Instr} (h : Moves s i t) (hs : Inv s) : Inv t := by
  cases h with
  | fault _ f => exact hs.raiseFault f
  | answer _ x v => exact (hs.setLcgState x).respond v
  | setlen n hn => exact (hs.setLen _ (lengthOf_le hn)).respond 0
  | setwlen n hn => exact (hs.setWlen _ (lengthOf_le hn)).respond 0
  | wre index word hi => exact (hs.memWrite .ebuf _ word hi).respond 0
  | wrw index word hi => exact (hs.memWrite .wbuf _ word hi).respond 0
  | perm x l hl =>
    exact (((hs.setMem_memWriteList .obuf l (hl ▸ hs.len)).setLcgState x).setOlen s.len hs.len).respond _
  | permn n x l hn hl =>
    exact (((hs.setMem_memWriteList .obuf l (hl ▸ hn)).setLcgState x).setOlen _ (lengthOf_le hn)).respond n
  | shuf x l hl => exact ((hs.setMem_memWriteList .ebuf l (hl ▸ hs.len)).setLcgState x).respond _

/-- Settles O54: a step is idle, or executes a command or refuses a packet in the state from which the packet was taken; each
keeps the invariant, a command by `Moves.inv`. -/
theorem stepKeepsTheInvariant : Obligations.StepKeepsTheInvariant := by
  intro s t hs hstep
  cases hc : s.commands with
  | nil =>
    cases hstep.symm.trans (step_of_no_commands s hc)
    exact hs.idle
  | cons p rest =>
    cases hp : decode p with
    | command i =>
      rw [step_of_command s p rest i hc hp] at hstep
      exact (moves_of_exec i _ t hstep).inv (hs.setCommands rest)
    | reserved op =>
      cases hstep.symm.trans (step_of_reserved s p rest op hc hp)
      exact (hs.setCommands rest).raiseFault .badCommand

theorem inv_resetWith (c : Config) (p : Nat) (h : c.wf) : Inv (State.resetWith c p) where
  capacity := h
  len := Nat.zero_le _
  wlen := Nat.zero_le _
  olen := Nat.zero_le _
  mem := rfl
  response := fun _ hr => nomatch hr

/-- The capacity of `unitConfig` is at least 1 whatever the free value is (log entry 5). -/
theorem unitConfig_wf : unitConfig.wf := by
  simp only [Config.wf, unitConfig]
  split
  · decide
  · next h => exact Nat.one_le_iff_ne_zero.2 fun h0 => h (BitVec.eq_of_toNat_eq h0)

/-- Settles O55: the lengths are 0, the buffers list no word, and there is no response. -/
theorem resetMeetsTheInvariant : Obligations.ResetMeetsTheInvariant :=
  ⟨inv_resetWith, inv_resetWith unitConfig 0 unitConfig_wf⟩

/-! ### Who writes what -/

theorem Moves.sameInstance {s t : State} {i : Instr} (h : Moves s i t) : SameInstance s t := by
  cases h <;> exact ⟨rfl, rfl, rfl, rfl, rfl⟩

theorem Moves.len_eq {s t : State} {i : Instr} (h : Moves s i t) (hi : ∀ n, i ≠ .setlen n) : t.len = s.len := by
  cases h with
  | setlen n => exact absurd rfl (hi n)
  | _ => rfl

theorem Moves.wlen_eq {s t : State} {i : Instr} (h : Moves s i t) (hi : ∀ n, i ≠ .setwlen n) : t.wlen = s.wlen := by
  cases h with
  | setwlen n => exact absurd rfl (hi n)
  | _ => rfl

theorem Moves.olen_eq {s t : State} {i : Instr} (h : Moves s i t) (hi : ¬ writesObuf i) : t.olen = s.olen := by
  cases h with
  | perm => exact absurd (.inl rfl) hi
  | permn n => exact absurd (.inr ⟨n, rfl⟩) hi
  | _ => rfl

/-- The commands that may write word `k` of the buffer (20_memory.md R51). -/
def writesWord : Space → Nat → Instr → Prop
  | .ebuf, k, i => writesEbufWord k i
  | .wbuf, k, i => writesWbufWord k i
  | .obuf, _, i => writesObuf i

/-- The words of the other buffers are as before when a list has been written to one. -/
theorem memRead_setMem_memWriteList (sp sp' : Space) (k : Nat) (l : List Word) (s t : State)
    (hm : t.mem = (memWriteList sp l s).mem) (hp : t.powerUp = s.powerUp) (h : sp' ≠ sp) :
    memRead sp' k t = memRead sp' k s := by
  have hpw : (memWriteList sp l s).powerUp = s.powerUp := by rw [memWriteList_eq]
  rw [memRead_congr sp' k (memWriteList sp l s) t hm (hp.trans hpw.symm), memRead_memWriteList, if_neg h]

/-- A word reads as before after every command that may not write it. -/
theorem Moves.memRead_eq {s t : State} {i : Instr} (h : Moves s i t) (sp : Space) (k : Nat) (hi : ¬ writesWord sp k i) :
    memRead sp k t = memRead sp k s := by
  cases h with
  | fault | answer | setlen | setwlen => rfl
  | wre index word =>
    rw [memRead_respond, memRead_memWrite, if_neg]
    rintro ⟨rfl, rfl⟩
    exact hi (.inr ⟨index, word, rfl, rfl⟩)
  | wrw index word =>
    rw [memRead_respond, memRead_memWrite, if_neg]
    rintro ⟨rfl, rfl⟩
    exact hi ⟨index, word, rfl, rfl⟩
  | perm x l =>
    refine memRead_setMem_memWriteList .obuf sp k l s _ rfl rfl ?_
    rintro rfl
    exact hi (.inl rfl)
  | permn n x l =>
    refine memRead_setMem_memWriteList .obuf sp k l s _ rfl rfl ?_
    rintro rfl
    exact hi (.inr ⟨n, rfl⟩)
  | shuf x l =>
    refine memRead_setMem_memWriteList .ebuf sp k l s _ rfl rfl ?_
    rintro rfl
    exact hi (.inl rfl)

/-- Settles O52, by the cases of `Moves`: each field is written in the cases of its own commands only. -/
theorem eachRegisterHasItsOwnWriters : Obligations.EachRegisterHasItsOwnWriters := by
  intro i s t h
  have hm := moves_of_exec i s t h
  refine ⟨hm.sameInstance, hm.len_eq, hm.wlen_eq, fun ho => ⟨hm.olen_eq ho, fun k => hm.memRead_eq .obuf k ho⟩,
    fun he k => hm.memRead_eq .ebuf k fun hw => he ?_, fun hb k => hm.memRead_eq .wbuf k fun hw => hb ?_⟩
  · exact hw.imp_right fun ⟨index, word, hi, _⟩ => ⟨index, word, hi⟩
  · obtain ⟨index, word, hi, -⟩ := hw
    exact ⟨index, word, hi⟩

/-! ### What a command reads -/

/-- A command whose effect does not read the response port does not read it. -/
theorem runCommand_setResponse (checks : List (Bool × Status)) (effect : State → State) (s : State) (r : Option Response)
    (h : effect { s with response := r } = effect s) :
    runCommand checks effect { s with response := r } = runCommand checks effect s := by
  cases hf : firstFault checks with
  | none => rw [runCommand_of_none _ _ _ hf, runCommand_of_none _ _ _ hf, h]
  | some f => rw [runCommand_of_some _ _ _ f hf, runCommand_of_some _ _ _ f hf]; rfl

/-- Settles O10: no check and no effect reads the response port, the permutation included, and each command writes it. -/
theorem pastOutcomesAreNotKept : Obligations.PastOutcomesAreNotKept := by
  intro i s r
  cases i with
  | init | nextu32 | nextint0 | nextflt0 | getlen | getwlen | getolen => rfl
  | nextint1 | nextint2 | nextflt1 | nextflt2 | wchi | wche | setlen | setwlen | wre | wrw | rde | rdw | rdo =>
    exact congrArg Host.Outcome.next (runCommand_setResponse _ _ s r rfl)
  | perm =>
    exact (congrArg (fun d => Host.Outcome.next (respond (zext s.len) { d with olen := s.len }))
      (memWriteList_permute_setResponse .obuf (memReadList .ebuf s.len.toNat s) s r) :)
  | permn n =>
    exact congrArg Host.Outcome.next (runCommand_setResponse _ _ s r
      (congrArg (fun d => respond n { d with olen := lengthOf n })
        (memWriteList_permute_setResponse .obuf (indexWords (uval n)) s r)))
  | shuf =>
    exact (congrArg (fun d => Host.Outcome.next (respond (zext s.len) d))
      (memWriteList_permute_setResponse .ebuf (memReadList .ebuf s.len.toNat s) s r) :)

/-- A command whose effect carries `STATE` over carries it over. -/
theorem runCommand_setLcgState (checks : List (Bool × Status)) (effect : State → State) (s : State) (x : Word)
    (h : effect { s with lcgState := x } = { effect s with lcgState := x }) :
    runCommand checks effect { s with lcgState := x } = { runCommand checks effect s with lcgState := x } := by
  cases hf : firstFault checks with
  | none => rw [runCommand_of_none _ _ _ hf, runCommand_of_none _ _ _ hf, h]
  | some f => rw [runCommand_of_some _ _ _ f hf, runCommand_of_some _ _ _ f hf]; rfl

/-- Writing a permutation of at most one word carries `STATE` over. -/
theorem memWriteList_permute_setLcgState (sp : Space) (l : List Word) (s : State) (x : Word) (h : l.length - 1 = 0) :
    memWriteList sp (permute l { s with lcgState := x }).1 (permute l { s with lcgState := x }).2 =
      { memWriteList sp (permute l s).1 (permute l s).2 with lcgState := x } := by
  rw [permute_of_length_le_one l _ h, permute_of_length_le_one l s h]
  exact memWriteList_setLcgState sp l s x

/-- A command that makes no draw carries `STATE` over and does the same whatever it holds. -/
theorem exec_setLcgState (i : Instr) (s : State) (x : Word) (h : drawCount s i = 0) :
    ∃ t, exec i s = .next t ∧ exec i { s with lcgState := x } = .next { t with lcgState := x } := by
  cases i with
  | init | nextu32 | nextint0 | nextint1 | nextint2 | nextflt0 | nextflt1 | nextflt2 | wchi | wche =>
    exact absurd h Nat.one_ne_zero
  | getlen | getwlen | getolen => exact ⟨_, rfl, rfl⟩
  | setlen | setwlen | wre | wrw | rde | rdw | rdo =>
    exact ⟨_, rfl, congrArg Host.Outcome.next (runCommand_setLcgState _ _ s x rfl)⟩
  | perm =>
    exact ⟨_, rfl, (congrArg (fun d => Host.Outcome.next (respond (zext s.len) { d with olen := s.len }))
      (memWriteList_permute_setLcgState .obuf (memReadList .ebuf s.len.toNat s) s x (by simpa [drawCount] using h)) :)⟩
  | permn n =>
    exact ⟨_, rfl, congrArg Host.Outcome.next (runCommand_setLcgState _ _ s x
      (congrArg (fun d => respond n { d with olen := lengthOf n })
        (memWriteList_permute_setLcgState .obuf (indexWords (uval n)) s x (by simpa [drawCount, indexWords, uval] using h))))⟩
  | shuf =>
    exact ⟨_, rfl, (congrArg (fun d => Host.Outcome.next (respond (zext s.len) d))
      (memWriteList_permute_setLcgState .ebuf (memReadList .ebuf s.len.toNat s) s x (by simpa [drawCount] using h)) :)⟩

/-- Settles O53: `exec` is a function, so the state it answers is that of `exec_setLcgState`. -/
theorem stateIsSeenOnlyThroughDraws : Obligations.StateIsSeenOnlyThroughDraws := by
  intro i s t x h ht
  obtain ⟨t', ht', hx⟩ := exec_setLcgState i s x h
  cases ht.symm.trans ht'
  exact hx

/-! ### Runs -/

theorem run_succ_of_step (k : Nat) (s t : State) (h : step s = .next t) : core.run (k + 1) s = core.run k t := by
  have hcore : core.step s = .next t := h
  simp only [Host.Core.run, hcore]

/-- The command with which the host reads a word of the buffer (20_memory.md R51). -/
def readCommand : Space → Word → Instr
  | .ebuf, index => .rde index
  | .wbuf, index => .rdw index
  | .obuf, index => .rdo index

theorem exec_readCommand (sp : Space) (index : Word) (s : State) (h : index.toNat < s.nMax.toNat) :
    exec (readCommand sp index) s = .next (respond (memRead sp index.toNat s) s) := by
  rw [← hostRead_of_lt sp index s h]
  cases sp <;> rfl

/-- The read that follows any commands that do not write its word responds what the word reads as before them. -/
theorem run_readCommand (sp : Space) (index : Word) (before : List Instr) (s : State)
    (hindex : index.toNat < s.nMax.toNat) (hbefore : ∀ i ∈ before, ¬ writesWord sp index.toNat i)
    (hcommands : s.commands = before.map encode ++ [encode (readCommand sp index)]) :
    ∃ t, core.run (before.length + 1) s = .next t ∧ RespondsOk (memRead sp index.toNat s) t ∧ t.commands = [] := by
  induction before generalizing s with
  | nil =>
    have hstep := step_of_command s _ [] _ hcommands (decode_encode _)
    exact ⟨_, run_succ_of_step 0 s _ (hstep.trans (exec_readCommand sp index _ hindex)), rfl, rfl⟩
  | cons i is ih =>
    have hstep := step_of_command s _ _ i hcommands (decode_encode i)
    obtain ⟨u, hu, hmoves⟩ := exec_moves i { s with commands := is.map encode ++ [encode (readCommand sp index)] }
    have hword : memRead sp index.toNat u = memRead sp index.toNat s :=
      hmoves.memRead_eq sp index.toNat (hbefore i List.mem_cons_self)
    obtain ⟨-, -, hnMax, -, hrest⟩ := hmoves.sameInstance
    obtain ⟨t, hrun, hresponds, hempty⟩ :=
      ih u (hnMax ▸ hindex) (fun j hj => hbefore j (List.mem_cons_of_mem i hj)) hrest
    exact ⟨t, (run_succ_of_step _ s u (hstep.trans hu)).trans hrun, hword ▸ hresponds, hempty⟩

/-- Settles O57, by `run_readCommand` from the state after reset, in which each word reads as its free value. -/
theorem unwrittenWordsKeepTheirFreeContent : Obligations.UnwrittenWordsKeepTheirFreeContent := by
  intro c p
  have hfree : ∀ (sp : Space) (i : Nat), memRead sp i (State.resetWith c p) = Config.freeWord p sp i := by
    intro sp i
    cases sp <;> rfl
  refine ⟨hfree, fun index before hindex => ?_⟩
  have hrun : ∀ sp, (∀ i ∈ before, ¬ writesWord sp index.toNat i) →
      ∃ t, core.run (before.length + 1)
          { State.resetWith c p with commands := before.map encode ++ [encode (readCommand sp index)] } = .next t ∧
        RespondsOk (Config.freeWord p sp index.toNat) t ∧ t.commands = [] := fun sp hbefore =>
    hfree sp index.toNat ▸ run_readCommand sp index before _ hindex hbefore rfl
  exact ⟨hrun .ebuf, hrun .wbuf, hrun .obuf⟩

end Sys2Proof.Machine
end

section
/-! PROOFS of the family 20_memory: a word that the host writes is the word it reads, until another command writes it. -/

namespace Sys2Proof.Machine

/-- The step that takes a command writing a word at a valid index: the word is stored, and the packets after it remain. -/
theorem step_of_hostWrite (sp : Space) (index word : Word) (write : Instr) (s : State) (rest : List Packet)
    (hwrite : ∀ u, exec write u = .next (hostWrite sp index word u)) (hindex : index.toNat < s.nMax.toNat)
    (hcommands : s.commands = encode write :: rest) :
    ∃ t, step s = .next t ∧ memRead sp index.toNat t = word ∧ t.nMax = s.nMax ∧ t.commands = rest := by
  have hexec : exec write { s with commands := rest } =
      .next (respond 0 (memWrite sp index.toNat word { s with commands := rest })) :=
    (hwrite _).trans (congrArg Host.Outcome.next (hostWrite_of_lt sp index word _ hindex))
  exact ⟨_, (step_of_command s _ rest write hcommands (decode_encode write)).trans hexec,
    by rw [memRead_respond, memRead_memWrite, if_pos ⟨rfl, rfl⟩], rfl, rfl⟩

/-- A command that writes a word, any commands that do not write that word, and the read of it: the first step stores the
word, and `run_readCommand` is about the run that remains. -/
theorem run_readCommand_of_hostWrite (sp : Space) (index word : Word) (write : Instr) (between : List Instr) (s : State)
    (hwrite : ∀ u, exec write u = .next (hostWrite sp index word u)) (hindex : index.toNat < s.nMax.toNat)
    (hbetween : ∀ i ∈ between, ¬ writesWord sp index.toNat i)
    (hcommands : s.commands = encode write :: (between.map encode ++ [encode (readCommand sp index)])) :
    ∃ t, core.run (between.length + 2) s = .next t ∧ RespondsOk word t ∧ t.commands = [] := by
  obtain ⟨u, hstep, hword, hnMax, hrest⟩ := step_of_hostWrite sp index word write s _ hwrite hindex hcommands
  rw [run_succ_of_step (between.length + 1) s u hstep, ← hword]
  exact run_readCommand sp index between u (hnMax ▸ hindex) hbetween hrest

/-- Settles O47, by `run_readCommand_of_hostWrite` for each of the two buffers that the host writes. -/
theorem readReturnsTheLatestWrite : Obligations.ReadReturnsTheLatestWrite := fun s index word between hindex =>
  ⟨run_readCommand_of_hostWrite .ebuf index word (.wre index word) between s (fun _ => rfl) hindex,
    run_readCommand_of_hostWrite .wbuf index word (.wrw index word) between s (fun _ => rfl) hindex⟩

end Sys2Proof.Machine
end

section
/-! PROOFS of the family 30_encoding: what the opcode map reads, said once for all opcodes, and what follows from it for the
encoder, the ignored operand fields and the reserved opcodes; the response packet; the assembler's lines; and the run of `LOADE`. -/

namespace Sys2Proof.Machine

/-! ### The opcode map -/

/-- The operand `w` of a packet with opcode `op` as the command sees it, `users` being the opcodes that use the field: 0 when
the command ignores it (30_encoding.md R72, R80). -/
def usedOperand (users : List (BitVec 8)) (op : BitVec 8) (w : Word) : Word := if op ∈ users then w else 0

theorem usedOperand_eq_self (users : List (BitVec 8)) (op : BitVec 8) (w : Word) (h : op ∉ users → w = 0) :
    usedOperand users op w = w :=
  ite_eq_left_iff.2 fun hop => (h hop).symm

theorem usedOperand_congr (users : List (BitVec 8)) (op : BitVec 8) (w w' : Word) (h : op ∈ users → w = w') :
    usedOperand users op w = usedOperand users op w' := by
  by_cases hop : op ∈ users
  · rw [h hop]
  · simp [usedOperand, hop]

/-- What the opcode map reads: under a legal opcode a command, whose encoding has that opcode and the operands it uses; every
other opcode is reserved (30_encoding.md R75, R78). -/
theorem decodeFields_cases (op : BitVec 8) (a b : Word) :
    (op ∈ legalOpcodes ∧ ∃ i, decodeFields op a b = .command i ∧
      encode i = mkPacket op (usedOperand opcodesUsingA op a) (usedOperand opcodesUsingB op b)) ∨
    (op ∉ legalOpcodes ∧ decodeFields op a b = .reserved op) := by
  unfold decodeFields
  split
  case h_24 =>
    refine .inr ⟨?_, rfl⟩
    simp only [legalOpcodes, List.cons_append, List.nil_append, List.mem_cons, List.not_mem_nil, or_false, not_or]
    and_intros <;> assumption
  all_goals exact .inl ⟨by decide, _, rfl, rfl⟩

theorem encode_of_decodeFields (op : BitVec 8) (a b : Word) (i : Instr) (h : decodeFields op a b = .command i) :
    encode i = mkPacket op (usedOperand opcodesUsingA op a) (usedOperand opcodesUsingB op b) := by
  obtain ⟨-, j, hj, hencode⟩ | ⟨-, hreserved⟩ := decodeFields_cases op a b
  · cases h.symm.trans hj
    exact hencode
  · cases h.symm.trans hreserved

theorem decodeFields_of_mem (op : BitVec 8) (a b : Word) (h : op ∈ legalOpcodes) :
    decodeFields op a b =
      decode (mkPacket op (usedOperand opcodesUsingA op a) (usedOperand opcodesUsingB op b)) := by
  obtain ⟨-, i, hi, hencode⟩ | ⟨hop, -⟩ := decodeFields_cases op a b
  · rw [hi, ← hencode, decode_encode]
  · exact absurd h hop

theorem decodeFields_of_notMem (op : BitVec 8) (a b : Word) (h : op ∉ legalOpcodes) :
    decodeFields op a b = .reserved op := by
  obtain ⟨hop, -⟩ | ⟨-, hreserved⟩ := decodeFields_cases op a b
  · exact absurd hop h
  · exact hreserved

/-- Settles O1: a packet that decodes to a command is made of the fields of the command's encoding, by
`encode_of_decodeFields`, when the fields the command ignores are 0. -/
theorem commandsSurviveEncoding : Obligations.CommandsSurviveEncoding := by
  refine fun i _ => ⟨decode_encode i, fun p hp ha hb => ?_⟩
  rw [encode_of_decodeFields _ _ _ i hp, usedOperand_eq_self _ _ _ ha, usedOperand_eq_self _ _ _ hb, mkPacket_fields]

/-- Packets that agree in the operand fields their legal opcode uses decode alike. -/
theorem decode_mkPacket_congr (op : BitVec 8) (a b a' b' : Word) (ha : op ∈ opcodesUsingA → a = a')
    (hb : op ∈ opcodesUsingB → b = b') (h : op ∈ legalOpcodes) :
    decode (mkPacket op a b) = decode (mkPacket op a' b') := by
  rw [decode_mkPacket, decode_mkPacket, decodeFields_of_mem op a b h, decodeFields_of_mem op a' b' h,
    usedOperand_congr _ op a a' ha, usedOperand_congr _ op b b' hb]

/-- A step sees the packet that it takes only as the decoder reads it. -/
theorem step_congr_of_decode (s : State) (p q : Packet) (rest : List Packet) (h : decode p = decode q) :
    step { s with commands := p :: rest } = step { s with commands := q :: rest } := by
  simp [step, takeCommand, h]

/-- Settles O2: the two packets decode alike, and a step sees no more of a packet than that. -/
theorem unusedOperandsAreIgnored : Obligations.UnusedOperandsAreIgnored := by
  intro op a b a' b' ha hb h
  have hdecode := decode_mkPacket_congr op a b a' b' ha hb h
  exact ⟨hdecode, fun s rest => step_congr_of_decode s _ _ rest hdecode⟩

/-- Settles O3: the opcode map reads such a packet as reserved, and the step that takes it raises the fault, which writes the
response port alone. -/
theorem reservedOpcodesFaultWithBadCommand : Obligations.ReservedOpcodesFaultWithBadCommand := by
  refine ⟨by decide +kernel, by decide, by decide, rfl, fun p hp => ?_⟩
  have hdecode : decode p = .reserved (packetOp p) := decodeFields_of_notMem _ _ _ hp
  exact ⟨hdecode, fun s rest h =>
    ⟨_, step_of_reserved s p rest _ h hdecode, rejectPacket_response _, nothingMoves_setResponse _ _⟩⟩

/-! ### Worked packets, the response packet and the assembler's lines -/

/-- Settles O4: the worked packets are the encodings, field for field, so they decode to their commands. -/
theorem workedPacketsDecodeAndEncode : Obligations.WorkedPacketsDecodeAndEncode := by
  have hinit : encode (.init 42#64) = 0x01000000000000002A0000000000000000#136 := by decide
  have hnextu32 : encode .nextu32 = 0x1000000000000000000000000000000000#136 := by decide
  have hnextint2 : encode (.nextint2 (BitVec.ofInt 64 (-5)) 5#64) = 0x22FFFFFFFFFFFFFFFB0000000000000005#136 := by decide
  have hnextflt1 : encode (.nextflt1 0x4024000000000000#64) = 0x3140240000000000000000000000000000#136 := by decide
  have hwre : encode (.wre 3#64 0x1234#64) = 0x6000000000000000030000000000001234#136 := by decide
  exact ⟨hinit ▸ decode_encode _, hnextu32 ▸ decode_encode _, hnextint2 ▸ decode_encode _, hnextflt1 ▸ decode_encode _,
    hwre ▸ decode_encode _, hinit, hnextu32, hnextint2, hnextflt1, hwre, by decide, by decide⟩

theorem responsePacket_toNat (r : Response) :
    (responsePacket r).toNat = (statusCode r.status).toNat * 2 ^ 64 + r.value.toNat := by
  rw [responsePacket, BitVec.toNat_append, ← Nat.shiftLeft_add_eq_or_of_lt r.value.isLt, Nat.shiftLeft_eq]

theorem statusCode_injective : Function.Injective statusCode := by
  intro f g
  cases f <;> cases g <;> decide

/-- Settles O5: the packet is the status code, times `2^64`, and the value below it; the codes are one for each status. -/
theorem responsePacketHoldsStatusAndValue : Obligations.ResponsePacketHoldsStatusAndValue := by
  intro r
  have hvalue := r.value.isLt
  have hcode (f : Status) : r.status = f ↔ statusCode r.status = statusCode f := statusCode_injective.eq_iff.symm
  rw [responsePacket_toNat]
  exact ⟨by omega, by omega, by cases r.status <;> decide, hcode .ok, hcode .invalidRange, hcode .lengthMismatch,
    hcode .emptyInput, hcode .badCommand, hcode .badIndex⟩

/-- Settles O6, line by line: the assembler is run on each. -/
theorem assemblerLinesGiveTheirPackets : Obligations.AssemblerLinesGiveTheirPackets := by
  refine ⟨?_, ?_, ?_, ?_, ?_, ?_, ?_, ?_, ?_, ?_⟩ <;> decide +kernel

/-! ### `LOADE` -/

/-- The commands that write the words of the list from index `k`: `WRE k, v0`; `WRE k+1, v1`; … (30_encoding.md R81). -/
def writeCommands (k : Nat) (vs : List Word) : List Instr := vs.mapIdx fun i v => .wre (BitVec.ofNat 64 (k + i)) v

theorem writeCommands_cons (k : Nat) (v : Word) (vs : List Word) :
    writeCommands k (v :: vs) = .wre (BitVec.ofNat 64 k) v :: writeCommands (k + 1) vs := by
  simp [writeCommands, List.mapIdx_cons, Nat.add_assoc, Nat.add_comm 1]

theorem expandLoadE_eq (vs : List Word) :
    expandLoadE vs = writeCommands 0 vs ++ [.setlen (BitVec.ofNat 64 vs.length)] := by
  simp [expandLoadE, writeCommands]

theorem toNat_ofNat_of_le_nMax (k : Nat) (s : State) (h : k ≤ s.nMax.toNat) : (BitVec.ofNat 64 k).toNat = k := by
  have hn := s.nMax.isLt
  rw [BitVec.toNat_ofNat]
  omega

theorem step_of_wre (s : State) (k : Nat) (v : Word) (rest : List Packet) (h : k < s.nMax.toNat)
    (hcommands : s.commands = encode (.wre (BitVec.ofNat 64 k) v) :: rest) :
    step s = .next (respond 0 (memWrite .ebuf k v { s with commands := rest })) := by
  have hk := toNat_ofNat_of_le_nMax k s h.le
  rw [step_of_command s _ rest _ hcommands (decode_encode _)]
  exact congrArg Host.Outcome.next ((hostWrite_of_lt .ebuf _ v _ (by rwa [hk])).trans (by rw [hk]))

theorem step_of_setlen (s : State) (n : Word) (rest : List Packet) (h : n.toNat ≤ s.nMax.toNat)
    (hcommands : s.commands = encode (.setlen n) :: rest) :
    step s = .next (respond 0 { s with commands := rest, len := lengthOf n }) := by
  rw [step_of_command s _ rest _ hcommands (decode_encode _)]
  exact congrArg Host.Outcome.next
    (runCommand_of_none _ _ _ (by simp [firstFault, badLength, uval, Nat.not_lt.2 h]))

/-- `t` reads as `s` after `vs` has been written to `EBUF` from index `k`, and neither the capacity nor `STATE` has moved. -/
structure LoadedFrom (k : Nat) (vs : List Word) (s t : State) : Prop where
  mem : t.mem = (memWriteFrom .ebuf k vs s).mem
  powerUp : t.powerUp = s.powerUp
  nMax : t.nMax = s.nMax
  lcgState : t.lcgState = s.lcgState

theorem LoadedFrom.cons {k : Nat} {v : Word} {vs : List Word} {s t : State} {rest : List Packet}
    (h : LoadedFrom (k + 1) vs (respond 0 (memWrite .ebuf k v { s with commands := rest })) t) :
    LoadedFrom k (v :: vs) s t where
  mem := h.mem.trans (memWriteFrom_mem_congr .ebuf (k + 1) vs (memWrite .ebuf k v s) _ rfl)
  powerUp := h.powerUp
  nMax := h.nMax
  lcgState := h.lcgState

/-- A word of `EBUF` after a list has been written from index 0: the list's, or past its end as before. -/
theorem LoadedFrom.memRead_eq {vs : List Word} {s t : State} (h : LoadedFrom 0 vs s t) (i : Nat) :
    memRead .ebuf i t = (vs[i]?).getD (memRead .ebuf i s) := by
  have hpowerUp : (memWriteList .ebuf vs s).powerUp = s.powerUp := by rw [memWriteList_eq]
  rw [memRead_congr .ebuf i (memWriteList .ebuf vs s) t h.mem (h.powerUp.trans hpowerUp.symm), memRead_memWriteList,
    if_pos rfl]

/-- The run over the packets that write a list writes it, and leaves the packets after them. -/
theorem run_writeCommands (vs : List Word) (k n : Nat) (s : State) (rest : List Packet)
    (h : k + vs.length ≤ s.nMax.toNat) (hcommands : s.commands = (writeCommands k vs).map encode ++ rest) :
    ∃ t, core.run (n + vs.length) s = core.run n t ∧ t.commands = rest ∧ LoadedFrom k vs s t := by
  induction vs generalizing k s with
  | nil => exact ⟨s, rfl, hcommands, rfl, rfl, rfl, rfl⟩
  | cons v vs ih =>
    rw [List.length_cons] at h
    rw [writeCommands_cons] at hcommands
    have hstep := step_of_wre s k v ((writeCommands (k + 1) vs).map encode ++ rest) (by omega) hcommands
    have hvs : k + 1 + vs.length ≤ s.nMax.toNat := by omega
    obtain ⟨t, hrun, hrest, hloaded⟩ := ih (k + 1) (respond 0 (memWrite .ebuf k v { s with commands := _ })) hvs rfl
    exact ⟨t, (run_succ_of_step _ s _ hstep).trans hrun, hrest, hloaded.cons⟩

/-- The register that holds a number of words within the capacity holds that number. -/
theorem lengthOf_ofNat_toNat (n : Nat) (s : State) (h : n ≤ s.nMax.toNat) : (lengthOf (BitVec.ofNat 64 n)).toNat = n := by
  have hn := s.nMax.isLt
  rw [lengthOf, BitVec.toNat_setWidth, toNat_ofNat_of_le_nMax n s h]
  omega

/-- The run over the packets of `LOADE` writes its words from index 0 and their number to `LEN`. -/
theorem run_expandLoadE (vs : List Word) (s : State) (h : vs.length ≤ s.nMax.toNat)
    (hcommands : s.commands = (expandLoadE vs).map encode) :
    ∃ t, core.run (vs.length + 1) s = .next t ∧ t.len.toNat = vs.length ∧ LoadedFrom 0 vs s t := by
  rw [expandLoadE_eq, List.map_append] at hcommands
  obtain ⟨u, hrun, hrest, hloaded⟩ := run_writeCommands vs 0 1 s _ (by omega) hcommands
  have hn : (BitVec.ofNat 64 vs.length).toNat ≤ u.nMax.toNat :=
    (toNat_ofNat_of_le_nMax vs.length s h).trans_le (hloaded.nMax ▸ h)
  rw [Nat.add_comm, hrun]
  exact ⟨_, run_succ_of_step 0 u _ (step_of_setlen u _ [] hn hrest), lengthOf_ofNat_toNat vs.length s h, { hloaded with }⟩

/-- The elements are the list that was written from index 0, when `LEN` is its length. -/
theorem elementList_eq (vs : List Word) (t : State) (hlen : t.len.toNat = vs.length)
    (h : ∀ i (hi : i < vs.length), memRead .ebuf i t = vs[i]) : elementList t = vs := by
  refine List.ext_getElem (by simp [elementList, hlen]) fun i _ hi => ?_
  simp [elementList, h i hi]

/-- Settles O48: the run is that of `run_expandLoadE`, and `LoadedFrom.memRead_eq` tells what each word of `EBUF` reads as
after it. -/
theorem loadELoadsTheElements : Obligations.LoadELoadsTheElements := by
  intro s vs h hcommands
  obtain ⟨t, hrun, hlen, hloaded⟩ := run_expandLoadE vs s h hcommands
  refine ⟨t, hrun, elementList_eq vs t hlen fun i hi => ?_, fun i hi => ?_, hloaded.lcgState⟩
  · rw [hloaded.memRead_eq, List.getElem?_eq_getElem hi, Option.getD_some]
  · rw [hloaded.memRead_eq, List.getElem?_eq_none hi, Option.getD_none]

end Sys2Proof.Machine
end

section
/-! PROOFS of the family 40_lcg_state_advance: `Lcg` is exact arithmetic reduced to the low 64 bits, in each form the spec
allows. -/

namespace Sys2Proof.Machine

/-- The definition (R100): the product and sum over the natural numbers, then reduced. -/
theorem lcg_toNat (s m c : Word) : (lcg s m c).toNat = (s.toNat * m.toNat + c.toNat) % 2 ^ 64 := by
  rw [lcg, BitVec.toNat_add, BitVec.toNat_mul, Nat.mod_add_mod]

/-- The low half of the full product is the product at the narrow width, since truncation is a ring map. -/
theorem lcg_eq_lowHalf_add (s m c : Word) : lcg s m c = (s.setWidth 128 * m.setWidth 128).setWidth 64 + c := by
  rw [BitVec.setWidth_mul _ _ (by decide), BitVec.setWidth_setWidth_of_le _ (by decide),
    BitVec.setWidth_setWidth_of_le _ (by decide), BitVec.setWidth_eq, BitVec.setWidth_eq, lcg]

/-- Signedness does not enter (R101): `BitVec.ofInt` keeps sums and products, and undoes the signed reading. -/
theorem lcg_eq_ofInt (s m c : Word) : lcg s m c = BitVec.ofInt 64 (s.toInt * m.toInt + c.toInt) := by
  rw [BitVec.ofInt_add, BitVec.ofInt_mul, BitVec.ofInt_toInt, BitVec.ofInt_toInt, BitVec.ofInt_toInt, lcg]

theorem lcg_zero_state (m c : Word) : lcg 0 m c = c := by simp [lcg]

theorem lcg_zero_multiplier (s c : Word) : lcg s 0 c = c := by simp [lcg]

theorem lcg_one_zero (s : Word) : lcg s 1 0 = s := by simp [lcg]

/-- Settles O11: each form by its lemma, the sum of the reduced product being the reduced sum; the worked examples (R100, R105)
are evaluated. -/
theorem lcgIsExactMultiplyAddModulo : Obligations.LcgIsExactMultiplyAddModulo := by
  refine ⟨fun s m c => ⟨lcg_toNat s m c, ?_, lcg_eq_lowHalf_add s m c, lcg_eq_ofInt s m c⟩,
    fun s m c => ⟨lcg_zero_state m c, lcg_zero_multiplier s c, lcg_one_zero s⟩,
    by decide, by decide, by decide, by decide, by decide⟩
  rw [lcg_toNat, Nat.mod_add_mod]

end Sys2Proof.Machine
end

section
/-! PROOFS of the family 41_output_permutation: the rotation, the xor-shift and the rotation count, each over natural numbers
and by what it reads of the word; the output made of them; and the draw that `NEXTU32` answers. -/

namespace Sys2Proof.Machine

/-! ### The rotation -/

/-- The formula of R112. Only the left shift can leave the 32 bits, so one reduction of the whole is enough. -/
theorem ror32_toNat (y : Word32) (k : Nat) :
    (ror32 y k).toNat = ((y.toNat >>> k) ||| (y.toNat <<< ((32 - k) % 32))) % 2 ^ 32 := by
  have hright : y.toNat >>> k % 2 ^ 32 = y.toNat >>> k :=
    Nat.mod_eq_of_lt ((Nat.shiftRight_le _ _).trans_lt y.isLt)
  rw [ror32, BitVec.toNat_or, BitVec.toNat_ushiftRight, BitVec.toNat_shiftLeft, Nat.or_mod_two_pow, hright]

theorem ror32_zero (y : Word32) : ror32 y 0 = y := by simp [ror32]

/-- The library's rotation shifts left by `32 - k`, without the reduction modulo 32 that matters for `k = 0` alone. -/
theorem ror32_eq_rotateRight (y : Word32) (k : Nat) (h : k < 32) : ror32 y k = y.rotateRight k := by
  cases k with
  | zero => simp [ror32_zero, BitVec.rotateRight_def]
  | succ k =>
    rw [ror32, BitVec.rotateRight_def, Nat.mod_eq_of_lt h, Nat.mod_eq_of_lt (Nat.sub_lt (by decide) k.succ_pos)]

theorem ror32_getLsbD (y : Word32) (k i : Nat) (hk : k < 32) (hi : i < 32) :
    (ror32 y k).getLsbD i = y.getLsbD ((i + k) % 32) := by
  rw [ror32_eq_rotateRight y k hk, BitVec.getLsbD_rotateRight, Nat.mod_eq_of_lt hk]
  by_cases hwrap : i < 32 - k
  · rw [decide_eq_true hwrap, cond_true, show k + i = (i + k) % 32 by omega]
  · rw [decide_eq_false hwrap, cond_false, decide_eq_true hi, Bool.true_and, show i - (32 - k) = (i + k) % 32 by omega]

/-- Settles O12: the formula by `ror32_toNat`, the bits by `ror32_getLsbD`; the examples are evaluated. -/
theorem rotateRightMovesEveryBit : Obligations.RotateRightMovesEveryBit :=
  ⟨fun y k hk => ⟨ror32_toNat y k, fun i hi => ror32_getLsbD y k i hk hi⟩, ror32_zero, by decide, by decide⟩

/-! ### The rotation count, the xor-shift and the output -/

theorem rotationCount_eq_shiftRight (x : Word) : rotationCount x = x.toNat >>> 59 := by
  rw [rotationCount, BitVec.toNat_ushiftRight]

theorem xorShift_toNat (x : Word) :
    (xorShift x).toNat = ((x.toNat ^^^ (x.toNat >>> 18)) >>> 27) % 2 ^ 32 := by
  rw [xorShift, BitVec.toNat_setWidth, BitVec.toNat_ushiftRight, BitVec.toNat_xor, BitVec.toNat_ushiftRight]

/-- The output over natural numbers: the one truncation stands between the xor-shift and the rotation (R113, R114). -/
theorem xshRr_toNat (x : Word) : (xshRr x).toNat = outputFormula x.toNat := by
  rw [xshRr, ror32_toNat, xorShift_toNat, rotationCount_eq_shiftRight, outputFormula]

theorem xorShift_getLsbD (x : Word) (i : Nat) (h : i < 32) :
    (xorShift x).getLsbD i = (x.getLsbD (27 + i) ^^ x.getLsbD (45 + i)) := by
  simp [xorShift, h, ← Nat.add_assoc]

/-- Above bit 18 the shifted copy has run out of bits. -/
theorem xorShift_getLsbD_of_high (x : Word) (i : Nat) (hlow : 19 ≤ i) (h : i < 32) :
    (xorShift x).getLsbD i = x.getLsbD (27 + i) := by
  rw [xorShift_getLsbD x i h, BitVec.getLsbD_of_ge x (45 + i) (by omega), Bool.xor_false]

theorem xorShift_eq_of_upper (x : Word) : xorShift x = ((x >>> 27) ^^^ (x >>> 27) >>> 18).setWidth 32 := by
  rw [xorShift, BitVec.ushiftRight_xor_distrib, ← BitVec.shiftRight_add, ← BitVec.shiftRight_add]

theorem rotationCount_eq_of_upper (x : Word) : rotationCount x = ((x >>> 27) >>> 32).toNat := by
  rw [rotationCount, ← BitVec.shiftRight_add]

/-- Both parts of the output read the word through its bits 63:27. -/
theorem xshRr_congr_of_upper (x z : Word) (h : z.toNat / 2 ^ 27 = x.toNat / 2 ^ 27) : xshRr z = xshRr x := by
  have hupper : z >>> 27 = x >>> 27 := BitVec.eq_of_toNat_eq (by
    rw [BitVec.toNat_ushiftRight, BitVec.toNat_ushiftRight, Nat.shiftRight_eq_div_pow, Nat.shiftRight_eq_div_pow, h])
  rw [xshRr, xshRr, xorShift_eq_of_upper, rotationCount_eq_of_upper, hupper, ← xorShift_eq_of_upper,
    ← rotationCount_eq_of_upper]

/-- Settles O13: each part by its lemma; the count is the quotient by `2^59`, and a word is below `2^64`. -/
theorem outputPermutationFollowsItsFormula : Obligations.OutputPermutationFollowsItsFormula := by
  intro x
  have hcount : rotationCount x = x.toNat / 2 ^ 59 := by
    rw [rotationCount_eq_shiftRight, Nat.shiftRight_eq_div_pow]
  have hx := x.isLt
  exact ⟨hcount, by omega, fun i hi => xorShift_getLsbD x i (by omega),
    fun i hlow hi => xorShift_getLsbD_of_high x i hlow (by omega), xshRr_toNat x, xshRr_congr_of_upper x⟩

/-! ### `NEXTU32` -/

theorem zext_toNat (u : Word32) : (zext u).toNat = u.toNat :=
  BitVec.toNat_setWidth_of_le (by decide)

theorem zext_toNat_lt (u : Word32) : (zext u).toNat < 2 ^ 32 := zext_toNat u ▸ u.isLt

/-- What a command that answers after one draw leaves unchanged. -/
theorem onlyStateMoves_respond_nextU32 (v : Word) (s : State) : OnlyStateMoves s (respond v (nextU32 s).2) where
  constants := ⟨rfl, rfl, rfl, rfl, rfl⟩
  lengths := ⟨rfl, rfl, rfl⟩
  buffers := fun _ _ => rfl

theorem oneDraw_respond_nextU32 (v : Word) (s : State) : OneDraw s (respond v (nextU32 s).2) :=
  lcg_toNat s.lcgState s.mult s.incr

theorem exec_nextu32 (s : State) :
    exec .nextu32 s = .next (respond (zext (xshRr s.lcgState)) (nextU32 s).2) := rfl

/-- The zero state has the output 0, and its successor is the increment (R116). -/
theorem nextU32_of_zero_state (s : State) (h : s.lcgState = 0) :
    zext (xshRr s.lcgState) = 0 ∧ (nextU32 s).2.lcgState = s.incr := by
  rw [nextU32_lcgState, h]
  exact ⟨by decide, lcg_zero_state _ _⟩

/-- The worked example of R116. -/
theorem nextU32_of_atS42 (s : State) (h : AtS42 s) :
    zext (xshRr s.lcgState) = 0x00000000C2F57BD6#64 ∧ (nextU32 s).2.lcgState = 0xBAA582B670050953#64 := by
  obtain ⟨hstate, hmult, hincr⟩ := h
  rw [nextU32_lcgState, hstate, hmult, hincr]
  decide

/-- Settles O14: the command is one draw, answered by its zero-extended output. -/
theorem nextU32RespondsTheOutput : Obligations.NextU32RespondsTheOutput :=
  ⟨fun a b => decode_mkPacket _ a b, fun s =>
    ⟨_, _, exec_nextu32 s, rfl, (zext_toNat _).trans (xshRr_toNat _), zext_toNat_lt _, oneDraw_respond_nextU32 _ s,
      onlyStateMoves_respond_nextU32 _ s, nextU32_of_zero_state s, nextU32_of_atS42 s⟩⟩

end Sys2Proof.Machine
end

section
/-! PROOFS of the family 42_seeding: `INIT` leaves the successor of `seed + INCR` whatever `STATE` held, and `Lcg` by an odd
multiplier is injective. -/

namespace Sys2Proof.Machine

/-! ### `INIT` -/

/-- Discarding the output of the one draw leaves its successor alone (R125). -/
theorem exec_init (seed : Word) (s : State) :
    exec (.init seed) s = .next (respond 0 { s with lcgState := lcg (seed + s.incr) s.mult s.incr }) := rfl

/-- What a command that answers and moves `STATE` leaves unchanged. -/
theorem onlyStateMoves_respond_setLcgState (v x : Word) (s : State) :
    OnlyStateMoves s (respond v { s with lcgState := x }) where
  constants := ⟨rfl, rfl, rfl, rfl, rfl⟩
  lengths := ⟨rfl, rfl, rfl⟩
  buffers := fun _ _ => rfl

/-- The seeded state is the spec's successor of the reduced sum. -/
theorem lcg_seed_toNat (seed : Word) (s : State) :
    (lcg (seed + s.incr) s.mult s.incr).toNat = successorFormula s ((seed.toNat + s.incr.toNat) % 2 ^ 64) := by
  rw [lcg_toNat, BitVec.toNat_add, successorFormula]

/-- The worked examples of R125; in the last the sum wraps. -/
theorem lcg_seed_of_defaultConstants (seed : Word) (s : State) (h : DefaultConstants s) :
    (seed = 42#64 → lcg (seed + s.incr) s.mult s.incr = 0x977AFD8015414A94#64) ∧
    (seed = 0#64 → lcg (seed + s.incr) s.mult s.incr = 0x1A08EE1184BA6D32#64) ∧
    (seed = 0xFFFFFFFFFFFFFFFF#64 → lcg (seed + s.incr) s.mult s.incr = 0xC1B6F9E43824EE05#64) := by
  obtain ⟨hmult, hincr⟩ := h
  rw [hmult, hincr]
  refine ⟨?_, ?_, ?_⟩ <;> rintro rfl <;> decide

/-- Settles O15: the command is `exec_init`, and each clause about the state it leaves is a lemma above. -/
theorem initSeedsTheState : Obligations.InitSeedsTheState :=
  ⟨fun a b => decode_mkPacket _ a b, fun seed s =>
    ⟨_, exec_init seed s, rfl, onlyStateMoves_respond_setLcgState 0 _ s, lcg_seed_toNat seed s,
      lcg_seed_of_defaultConstants seed s⟩⟩

/-! ### Different seeds -/

/-- An odd multiplier is coprime to `2^64`, so a product by it can be cancelled (R128). -/
theorem lcg_injective_of_odd (m c : Word) (hm : m.toNat % 2 = 1) : Function.Injective fun x => lcg x m c := by
  intro x y h
  have hproduct : x * m = y * m := (BitVec.add_left_inj c).1 h
  have hmod : x.toNat * m.toNat ≡ y.toNat * m.toNat [MOD 2 ^ 64] := by
    simpa only [Nat.ModEq, BitVec.toNat_mul] using congrArg BitVec.toNat hproduct
  have hcoprime : Nat.Coprime (2 ^ 64) m.toNat := (Nat.coprime_two_left.2 (Nat.odd_iff.2 hm)).pow_left 64
  exact BitVec.eq_of_toNat_eq ((hmod.cancel_right_of_coprime hcoprime).eq_of_lt_of_lt x.isLt y.isLt)

theorem lcgState_of_exec_init (seed : Word) (s t : State) (h : exec (.init seed) s = .next t) :
    t.lcgState = lcg (seed + s.incr) s.mult s.incr := by
  cases (exec_init seed s).symm.trans h
  rfl

/-- Settles O16: the seeded state reads the seed and the constants alone, through an addition and an injective `Lcg`. -/
theorem initIsInjectiveAndForgetful : Obligations.InitIsInjectiveAndForgetful := by
  intro seed seed' s s' t t' hmult hincr h h'
  have ht := lcgState_of_exec_init seed s t h
  have ht' := lcgState_of_exec_init seed' s' t' h'
  rw [hmult, hincr] at ht'
  refine ⟨fun hseed => by rw [ht, ht', hseed], fun hodd heq => ?_⟩
  have hsum : seed + s.incr = seed' + s.incr := lcg_injective_of_odd s.mult s.incr hodd (ht.symm.trans (heq.trans ht'))
  exact (BitVec.add_left_inj s.incr).1 hsum

end Sys2Proof.Machine
end

section
/-! PROOFS of the family 43_uniform_sampler: each reduction of an output is exact over the integers and fits the signed
64-bit result, and the outputs with one residue are counted. -/

namespace Sys2Proof.Machine

/-! ### Words read as signed integers -/

/-- The spec's signed reading is two's complement (00_scope.md R9). -/
theorem sval_eq_toInt (w : Word) : sval w = w.toInt := by
  rw [sval, BitVec.toInt_eq_toNat_cond]
  split <;> split <;> omega

/-- An integer in the signed range is what its word reads as (R130). -/
theorem wordOfInt_toInt (r : Int) (hlow : -2 ^ 63 ≤ r) (hhigh : r < 2 ^ 63) : (wordOfInt r).toInt = r :=
  BitVec.toInt_ofInt_eq_self (by decide) hlow hhigh

/-- A zero-extended output is positive as a signed integer too (R131). -/
theorem zext_toInt (u : Word32) : (zext u).toInt = u.toNat := by
  have hlt := zext_toNat_lt u
  rw [BitVec.toInt_eq_toNat_of_lt (by omega), zext_toNat]

theorem xshRr_lcgState_toNat (s : State) : (xshRr s.lcgState).toNat = nextOutput s := xshRr_toNat s.lcgState

/-- The output that the spec's worked examples draw. -/
theorem xshRr_of_atS42 (s : State) (h : AtS42 s) : xshRr s.lcgState = 0xC2F57BD6#32 := by
  rw [h.1]
  decide

/-! ### `NEXTINT0` -/

/-- `NEXTINT0` is `NEXTU32` under another opcode (R131). -/
theorem exec_nextint0_eq_exec_nextu32 (s : State) : exec .nextint0 s = exec .nextu32 s := rfl

/-- Settles O17: the command is `NEXTU32`, whose zero-extended output is non-negative as a signed integer. -/
theorem nextInt0RespondsTheWholeOutput : Obligations.NextInt0RespondsTheWholeOutput := by
  refine ⟨fun a b => decode_mkPacket _ a b, fun s => ?_⟩
  have hvalue : (zext (xshRr s.lcgState)).toInt = nextOutput s := by rw [zext_toInt, xshRr_lcgState_toNat]
  have hlt : nextOutput s < 2 ^ 32 := xshRr_lcgState_toNat s ▸ (xshRr s.lcgState).isLt
  exact ⟨_, _, (exec_nextint0_eq_exec_nextu32 s).trans (exec_nextu32 s), rfl, hvalue, by omega, by omega,
    oneDraw_respond_nextU32 _ s, onlyStateMoves_respond_nextU32 _ s, ⟨_, exec_nextu32 s, rfl⟩,
    fun h => (nextU32_of_atS42 s h).1⟩

/-! ### The reduction by one bound -/

theorem reduceBound_of_pos (u : Word32) (b : Int) (h : 0 < b) : reduceBound u b = (u.toNat : Int) % b := if_pos h

theorem reduceBound_of_neg (u : Word32) (b : Int) (h : b < 0) : reduceBound u b = (u.toNat : Int) % (-b) + b :=
  if_neg (by omega)

/-- A remainder of an output is at most the output, so below 2^32 for every divisor. -/
theorem output_emod_lt (u : Word32) (d : Int) (h : 0 < d) : (u.toNat : Int) % d < 2 ^ 32 := by
  lift d to Nat using h.le
  exact_mod_cast (Nat.mod_le u.toNat d).trans_lt u.isLt

theorem reduceBound_range_of_pos (u : Word32) (b : Int) (h : 0 < b) :
    0 ≤ reduceBound u b ∧ reduceBound u b < b ∧ reduceBound u b < 2 ^ 32 := by
  rw [reduceBound_of_pos u b h]
  exact ⟨Int.emod_nonneg _ h.ne', Int.emod_lt_of_pos _ h, output_emod_lt u b h⟩

theorem reduceBound_range_of_neg (u : Word32) (b : Int) (h : b < 0) :
    b ≤ reduceBound u b ∧ reduceBound u b < 0 ∧ reduceBound u b - b < 2 ^ 32 := by
  have hpos : 0 < -b := by omega
  have hnonneg := Int.emod_nonneg (u.toNat : Int) hpos.ne'
  have hlt := Int.emod_lt_of_pos (u.toNat : Int) hpos
  have houtput := output_emod_lt u (-b) hpos
  rw [reduceBound_of_neg u b h]
  omega

/-- Between 0 and a 64-bit bound, the reduced value fits the result. -/
theorem wordOfInt_reduceBound_toInt (u : Word32) (bound : Word) (h : bound.toInt ≠ 0) :
    (wordOfInt (reduceBound u bound.toInt)).toInt = reduceBound u bound.toInt := by
  have hlow : -2 ^ 63 ≤ bound.toInt := bound.le_toInt
  obtain hneg | hpos := Int.lt_or_gt_of_ne h
  · obtain ⟨hge, hlt, -⟩ := reduceBound_range_of_neg u bound.toInt hneg
    exact wordOfInt_toInt _ (by omega) (by omega)
  · obtain ⟨hge, -, hlt⟩ := reduceBound_range_of_pos u bound.toInt hpos
    exact wordOfInt_toInt _ (by omega) (by omega)

/-! ### `NEXTINT1` -/

theorem exec_nextint1_of_zero (bound : Word) (s : State) (h : bound.toInt = 0) :
    exec (.nextint1 bound) s = .next (raiseFault .invalidRange s) :=
  congrArg _ (runCommand_of_some _ _ s .invalidRange (by simp [firstFault, sval_eq_toInt, h]))

theorem exec_nextint1_of_ne_zero (bound : Word) (s : State) (h : bound.toInt ≠ 0) :
    exec (.nextint1 bound) s =
      .next (respond (wordOfInt (reduceBound (xshRr s.lcgState) bound.toInt)) (nextU32 s).2) := by
  rw [← sval_eq_toInt] at h ⊢
  exact congrArg _ (runCommand_of_none _ _ s (by simp [firstFault, h]))

/-- The answer to a worked example of R132 is the reduction of the output they all draw. -/
theorem answers_nextint1_of_atS42 (bound v : Word) (s : State) (h : AtS42 s) (hbound : bound.toInt ≠ 0)
    (hv : wordOfInt (reduceBound 0xC2F57BD6#32 bound.toInt) = v) : Answers (.nextint1 bound) s v := by
  rw [← hv, ← xshRr_of_atS42 s h]
  exact ⟨_, exec_nextint1_of_ne_zero bound s hbound, rfl⟩

/-- Settles O18: the value is the reduction of the output, which fits the result, so that each clause is one about
`reduceBound`. -/
theorem nextInt1ReducesByTheBound : Obligations.NextInt1ReducesByTheBound := by
  refine ⟨fun a b => decode_mkPacket _ a b, fun bound s h => ?_, fun bound s h => ?_, fun s h => ?_⟩
  · exact ⟨_, exec_nextint1_of_zero bound s h, rfl, nothingMoves_setResponse s _⟩
  · refine ⟨_, _, exec_nextint1_of_ne_zero bound s h, rfl, oneDraw_respond_nextU32 _ s,
      onlyStateMoves_respond_nextU32 _ s, ?_⟩
    rw [wordOfInt_reduceBound_toInt _ bound h, ← xshRr_lcgState_toNat]
    exact ⟨fun hpos => ⟨reduceBound_of_pos _ _ hpos, reduceBound_range_of_pos _ _ hpos⟩,
      fun hneg => ⟨reduceBound_of_neg _ _ hneg, reduceBound_range_of_neg _ _ hneg⟩⟩
  · refine ⟨?_, ?_, ?_, ?_, ?_, ?_⟩ <;>
      exact answers_nextint1_of_atS42 _ _ s h (by decide) (by decide)

/-! ### The reduction into a range -/

theorem reduceRange_range (u : Word32) (min max : Int) (h : min < max) :
    min ≤ reduceRange u min max ∧ reduceRange u min max < max := by
  have hpos : 0 < max - min := by omega
  have hnonneg := Int.emod_nonneg (u.toNat : Int) hpos.ne'
  have hlt := Int.emod_lt_of_pos (u.toNat : Int) hpos
  rw [reduceRange]
  omega

/-- A span of 1 leaves one value (R133). -/
theorem reduceRange_of_span_one (u : Word32) (min max : Int) (h : max = min + 1) : reduceRange u min max = min := by
  obtain ⟨hge, hlt⟩ := reduceRange_range u min max (by omega)
  omega

/-- A span past every output reduces none of them (R133). -/
theorem reduceRange_of_wide_span (u : Word32) (min max : Int) (h : 2 ^ 32 ≤ max - min) :
    reduceRange u min max = u.toNat + min := by
  have hlt := u.isLt
  rw [reduceRange, Int.emod_eq_of_lt (by omega) (by omega)]

/-- Between two 64-bit bounds, the reduced value fits the result. -/
theorem wordOfInt_reduceRange_toInt (u : Word32) (min max : Word) (h : min.toInt < max.toInt) :
    (wordOfInt (reduceRange u min.toInt max.toInt)).toInt = reduceRange u min.toInt max.toInt := by
  have hmin : -2 ^ 63 ≤ min.toInt := min.le_toInt
  have hmax : max.toInt < 2 ^ 63 := max.toInt_lt
  obtain ⟨hge, hlt⟩ := reduceRange_range u min.toInt max.toInt h
  exact wordOfInt_toInt _ (by omega) (by omega)

/-- The two readings of a word differ by a multiple of 2^64 (00_scope.md R9). -/
theorem toInt_emod (w : Word) : w.toInt % 2 ^ 64 = (w.toNat : Int) % 2 ^ 64 := by
  rw [BitVec.toInt_eq_toNat_bmod]
  exact Int.bmod_emod

/-- The span is below 2^64, so that the difference of the unsigned readings gives it modulo 2^64 (R133). -/
theorem unsigned_span_eq (min max : Word) (h : min.toInt < max.toInt) :
    ((max.toNat : Int) - min.toNat) % 2 ^ 64 = max.toInt - min.toInt := by
  have hmin : -2 ^ 63 ≤ min.toInt := min.le_toInt
  have hmax : max.toInt < 2 ^ 63 := max.toInt_lt
  calc ((max.toNat : Int) - min.toNat) % 2 ^ 64
      = (max.toInt - min.toInt) % 2 ^ 64 := by rw [Int.sub_emod, Int.sub_emod max.toInt, toInt_emod, toInt_emod]
    _ = max.toInt - min.toInt := Int.emod_eq_of_lt (by omega) (by omega)

/-- The 64-bit difference read unsigned is the span over the integers (R133). -/
theorem sub_toNat_eq_span (min max : Word) (h : min.toInt < max.toInt) :
    ((max - min).toNat : Int) = max.toInt - min.toInt := by
  rw [← unsigned_span_eq min max h, BitVec.toNat_sub]
  omega

/-- The value is also the sum on 64 bits, which may wrap, with the remainder by the 64-bit difference (R133). -/
theorem wordOfInt_reduceRange_eq_add (u : Word32) (min max : Word) (h : min.toInt < max.toInt) :
    wordOfInt (reduceRange u min.toInt max.toInt) = BitVec.ofNat 64 (u.toNat % (max - min).toNat) + min := by
  rw [wordOfInt, reduceRange, ← sub_toNat_eq_span min max h, BitVec.ofInt_add, BitVec.ofInt_toInt, ← Int.natCast_emod,
    BitVec.ofInt_natCast]

/-! ### `NEXTINT2` -/

theorem exec_nextint2_of_le (min max : Word) (s : State) (h : max.toInt ≤ min.toInt) :
    exec (.nextint2 min max) s = .next (raiseFault .invalidRange s) :=
  congrArg _ (runCommand_of_some _ _ s .invalidRange (by simp [firstFault, sval_eq_toInt, h]))

theorem exec_nextint2_of_lt (min max : Word) (s : State) (h : min.toInt < max.toInt) :
    exec (.nextint2 min max) s =
      .next (respond (wordOfInt (reduceRange (xshRr s.lcgState) min.toInt max.toInt)) (nextU32 s).2) := by
  rw [← sval_eq_toInt, ← sval_eq_toInt] at h ⊢
  exact congrArg _ (runCommand_of_none _ _ s (by simp [firstFault, h]))

/-- The answer to a worked example of R133 is the reduction of the output they all draw. -/
theorem answers_nextint2_of_atS42 (min max v : Word) (s : State) (h : AtS42 s) (hrange : min.toInt < max.toInt)
    (hv : wordOfInt (reduceRange 0xC2F57BD6#32 min.toInt max.toInt) = v) : Answers (.nextint2 min max) s v := by
  rw [← hv, ← xshRr_of_atS42 s h]
  exact ⟨_, exec_nextint2_of_lt min max s hrange, rfl⟩

/-- Settles O19: the value is the reduction of the output, which fits the result; the corner cases are those of
`reduceRange`. -/
theorem nextInt2ReducesIntoTheRange : Obligations.NextInt2ReducesIntoTheRange := by
  refine ⟨fun a b => decode_mkPacket _ a b, fun min max s h => ?_, fun min max s h => ?_, fun s h => ?_⟩
  · exact ⟨_, exec_nextint2_of_le min max s h, rfl, nothingMoves_setResponse s _⟩
  · have hvalue := wordOfInt_reduceRange_toInt (xshRr s.lcgState) min max h
    obtain ⟨hge, hlt⟩ := reduceRange_range (xshRr s.lcgState) min.toInt max.toInt h
    refine ⟨_, _, exec_nextint2_of_lt min max s h, rfl, oneDraw_respond_nextU32 _ s, onlyStateMoves_respond_nextU32 _ s, ?_⟩
    rw [hvalue, ← xshRr_lcgState_toNat]
    refine ⟨rfl, hge, hlt, unsigned_span_eq min max h, sub_toNat_eq_span min max h,
      wordOfInt_reduceRange_eq_add _ min max h, fun hone => ?_, fun hmin hmax => ⟨by omega, ?_⟩⟩
    · exact BitVec.eq_of_toInt_eq (hvalue.trans (reduceRange_of_span_one _ _ _ hone))
    · rw [reduceRange_of_wide_span _ _ _ (by omega), hmin, Int.sub_eq_add_neg]
  · refine ⟨?_, ?_, ?_, ?_, ?_, ?_⟩ <;>
      exact answers_nextint2_of_atS42 _ _ _ s h (by decide) (by decide)

/-! ### The bias -/

/-- A count over `Fin n` is a count below `n`. -/
theorem card_filter_fin_eq_count (n : Nat) (p : Nat → Prop) [DecidablePred p] :
    (Finset.univ.filter fun u : Fin n => p u).card = n.count p := by
  rw [Nat.count_eq_card_filter_range, ← Nat.Iio_eq_range, ← Fin.map_valEmbedding_univ, Finset.filter_map, Finset.card_map]
  rfl

/-- The outputs that reduce to `r` are those congruent to it. -/
theorem reduceBound_eq_iff_modEq (u : Word32) (d r : Nat) (hd : 0 < d) (hr : r < d) :
    reduceBound u (d : Int) = (r : Int) ↔ u.toNat ≡ r [MOD d] := by
  rw [reduceBound_of_pos u d (by omega), Nat.ModEq, Nat.mod_eq_of_lt hr]
  norm_cast

/-- Settles O20: the outputs with one residue are a congruence class below 2^32, and no output reaches a larger divisor. -/
theorem moduloBiasIsAsCounted : Obligations.ModuloBiasIsAsCounted := by
  refine ⟨fun d r hd _ hr => ?_, fun d u hd => ?_⟩
  · simp only [reduceBound_eq_iff_modEq _ d r hd hr, BitVec.toNat_ofFin]
    rw [card_filter_fin_eq_count (2 ^ 32) (· ≡ r [MOD d]), Nat.count_modEq_card _ hd, Nat.mod_eq_of_lt hr]
    split <;> rfl
  · have hlt := u.isLt
    rw [reduceBound_of_pos u d (by omega), Int.emod_eq_of_lt (by omega) (by omega)]

end Sys2Proof.Machine
end

section
/-! PROOFS of the family 44_float_converter: a finite datum as a significand and a number of exponent steps, `RN` as the
rounding of a significand, which makes it nearest and monotonic, and what follows for the arithmetic and the float sampler. -/

namespace Sys2Proof.Machine

/-! ### The parts of a datum -/

/-- `r × 2^k` units, with `r` a whole significand of 53 bits, or any shorter one when no exponent step is made. -/
def IsSignificand (k r : Nat) : Prop := r < 2 ^ 53 ∧ (k = 0 ∨ 2 ^ 52 ≤ r)

theorem IsSignificand.bits_lt {k r n : Nat} (h : IsSignificand k r) (hk : k ≤ n) :
    k * 2 ^ 52 + r < (n + 2) * 2 ^ 52 := by
  have hr := h.1
  omega

/-- More exponent steps make a larger magnitude. -/
theorem IsSignificand.mul_lt {k r k' r' : Nat} (h : IsSignificand k r) (h' : IsSignificand k' r') (hk : k < k') :
    r * 2 ^ k < r' * 2 ^ k' := by
  obtain ⟨hr, -⟩ := h
  have hr' : 2 ^ 52 ≤ r' := h'.2.resolve_left (by omega)
  calc r * 2 ^ k < 2 ^ 53 * 2 ^ k := Nat.mul_lt_mul_of_pos_right hr (Nat.two_pow_pos k)
    _ = 2 ^ 52 * 2 ^ (k + 1) := by ring
    _ ≤ r' * 2 ^ k' := Nat.mul_le_mul hr' (Nat.pow_le_pow_right (by decide) hk)

theorem IsSignificand.mul_le {k r n : Nat} (h : IsSignificand k r) (hk : k ≤ n) : r * 2 ^ k ≤ (2 ^ 53 - 1) * 2 ^ n :=
  Nat.mul_le_mul (Nat.le_sub_one_of_lt h.1) (Nat.pow_le_pow_right (by decide) hk)

/-- The last significand at `n + 1` steps lies below the middle between it and the next power of two. -/
theorem maxSignificand_lt_threshold (k n : Nat) (h : k = n + 1) : (2 ^ 53 - 1) * 2 ^ k < (2 ^ 54 - 1) * 2 ^ n := by
  have hpos := Nat.two_pow_pos n
  rw [h, Nat.pow_succ]
  omega

theorem IsSignificand.eq_of_mul_eq {k r k' r' : Nat} (h : IsSignificand k r) (h' : IsSignificand k' r')
    (heq : r * 2 ^ k = r' * 2 ^ k') : k = k' ∧ r = r' := by
  obtain hlt | rfl | hgt := Nat.lt_trichotomy k k'
  · exact absurd heq (h.mul_lt h' hlt).ne
  · exact ⟨rfl, Nat.eq_of_mul_eq_mul_right (Nat.two_pow_pos k) heq⟩
  · exact absurd heq (h'.mul_lt h hgt).ne'

theorem f64Finite_iff (w : Word) : f64Finite w = true ↔ f64Exp w ≤ 2046 := by
  have hlt := f64Exp_lt w
  rw [f64Finite, bne_iff_ne]
  omega

theorem f64Finite_signedBits (neg : Bool) (m : Nat) (h : m < 2 ^ 63) :
    f64Finite (signedBits neg m) = true ↔ m < 2047 * 2 ^ 52 := by
  rw [f64Finite_iff, f64Exp_signedBits neg m h]
  omega

/-- Every finite datum is made of its sign, at most 2045 exponent steps and a significand (R150). -/
theorem exists_significand (w : Word) (h : f64Finite w = true) :
    ∃ k r, IsSignificand k r ∧ k ≤ 2045 ∧ w = signedBits (f64Sign w) (k * 2 ^ 52 + r) ∧ f64Mag w = r * 2 ^ k := by
  have hexp := (f64Finite_iff w).1 h
  have hfrac := f64Frac_lt w
  have hw := signedBits_fields w
  rw [f64Mag]
  split
  next h0 => exact ⟨0, f64Frac w, ⟨by omega, .inl rfl⟩, by omega, by rw [← h0, hw], by simp⟩
  next h0 =>
    refine ⟨f64Exp w - 1, 2 ^ 52 + f64Frac w, ⟨by omega, .inr (by omega)⟩, by omega, ?_, rfl⟩
    rw [show (f64Exp w - 1) * 2 ^ 52 + (2 ^ 52 + f64Frac w) = f64Exp w * 2 ^ 52 + f64Frac w by omega, hw]

/-- The datum made of a significand. -/
theorem signedBits_of_significand (neg : Bool) (k r : Nat) (h : IsSignificand k r) (hk : k ≤ 2045) :
    f64Finite (signedBits neg (k * 2 ^ 52 + r)) = true ∧ f64Sign (signedBits neg (k * 2 ^ 52 + r)) = neg ∧
      f64Mag (signedBits neg (k * 2 ^ 52 + r)) = r * 2 ^ k := by
  have hbits := h.bits_lt hk
  have hlt : k * 2 ^ 52 + r < 2 ^ 63 := by omega
  exact ⟨(f64Finite_signedBits neg _ hlt).2 hbits, f64Sign_signedBits neg _ hlt,
    f64Mag_signedBits neg k r hlt h.1.le h.2⟩

/-- A finite datum is known by its sign and its magnitude. -/
theorem eq_of_f64Mag_eq (x y : Word) (hx : f64Finite x = true) (hy : f64Finite y = true)
    (hsign : f64Sign x = f64Sign y) (hmag : f64Mag x = f64Mag y) : x = y := by
  obtain ⟨k, r, h, -, hxw, hxm⟩ := exists_significand x hx
  obtain ⟨k', r', h', -, hyw, hym⟩ := exists_significand y hy
  obtain ⟨rfl, rfl⟩ := h.eq_of_mul_eq h' (by rw [← hxm, hmag, hym])
  rw [hxw, hyw, hsign]

/-- The largest finite magnitude, `2^53 - 1` at 2045 steps. -/
theorem f64Mag_le_max (w : Word) (h : f64Finite w = true) : f64Mag w ≤ (2 ^ 53 - 1) * 2 ^ 2045 := by
  obtain ⟨k, r, hkr, hk, -, hm⟩ := exists_significand w h
  exact hm.le.trans (hkr.mul_le hk)

theorem f64Mag_lt_overflowUnits (w : Word) (h : f64Finite w = true) : f64Mag w < overflowUnits :=
  (f64Mag_le_max w h).trans_lt (maxSignificand_lt_threshold 2045 2044 rfl)

/-- Every `m × 2^q` in the range is the magnitude of a datum: `m` is doubled until it fills the significand or no power of two
is left (R150). -/
theorem exists_datum (neg : Bool) (m q : Nat) (hm : m < 2 ^ 53) (hq : q ≤ 2045) :
    ∃ w : Word, f64Finite w = true ∧ f64Sign w = neg ∧ f64Mag w = m * 2 ^ q := by
  induction q generalizing m with
  | zero => exact ⟨_, signedBits_of_significand neg 0 m ⟨hm, .inl rfl⟩ hq⟩
  | succ q ih =>
    rcases Nat.lt_or_ge m (2 ^ 52) with hlt | hge
    · obtain ⟨w, hw, hsign, hmag⟩ := ih (2 * m) (by omega) (by omega)
      exact ⟨w, hw, hsign, by rw [hmag]; ring⟩
    · exact ⟨_, signedBits_of_significand neg (q + 1) m ⟨hm, .inr hge⟩ hq⟩

theorem f64IsZero_iff (w : Word) : f64IsZero w = true ↔ w = 0#64 ∨ w = 0x8000000000000000#64 := by
  have hlt := w.isLt
  rw [f64IsZero, beq_iff_eq, ← BitVec.toNat_inj, ← BitVec.toNat_inj, BitVec.toNat_ofNat, BitVec.toNat_ofNat]
  omega

theorem f64IsInf_iff (w : Word) : f64IsInf w = true ↔ w = 0x7FF0000000000000#64 ∨ w = 0xFFF0000000000000#64 := by
  have hlt := w.isLt
  rw [f64IsInf, Bool.and_eq_true, beq_iff_eq, beq_iff_eq, f64Exp, f64Frac, ← BitVec.toNat_inj, ← BitVec.toNat_inj,
    BitVec.toNat_ofNat, BitVec.toNat_ofNat]
  omega

theorem f64Finite_iff_not_special (w : Word) : f64Finite w = true ↔ f64IsNaN w = false ∧ f64IsInf w = false := by
  rw [f64Finite, f64IsNaN, f64IsInf]
  cases he : f64Exp w == 2047 <;> cases hf : f64Frac w == 0 <;> simp [bne, he, hf]

theorem toNat_eq_fields (w : Word) : w.toNat = signWeight (f64Sign w) + f64Exp w * 2 ^ 52 + f64Frac w := by
  have hexp := f64Exp_lt w
  have hfrac := f64Frac_lt w
  conv_lhs => rw [← signedBits_fields w]
  rw [signedBits_toNat _ _ (by omega), Nat.add_assoc]

/-- Settles O21: the classes are read off the fields, and the finite magnitudes are the significands times their steps. -/
theorem finiteValuesAreExactlyTheDyadics : Obligations.FiniteValuesAreExactlyTheDyadics := by
  refine ⟨fun w => ⟨f64Finite_iff_not_special w, ?_, f64IsZero_iff w, f64IsInf_iff w, toNat_eq_fields w⟩, fun w h => ?_,
    exists_datum, f64Mag_le_max⟩
  · rw [f64IsNaN, f64IsInf]
    cases hf : f64Frac w == 0 <;> simp [bne, hf]
  · obtain ⟨k, r, ⟨hr, -⟩, hk, -, hm⟩ := exists_significand w h
    exact ⟨r, k, hr, hk, hm⟩

/-! ### `RN` -/

/-- How many low bits `RN` drops from a magnitude. -/
def droppedBits (num den : Nat) : Nat := (num / den).log2 - 52

/-- The significand that `RN` rounds a magnitude to. -/
def roundedSignificand (num den : Nat) : Nat := roundHalfEven num (den * 2 ^ droppedBits num den)

theorem roundMagnitude_eq_parts (num den : Nat) :
    roundMagnitude num den = min (2047 * 2 ^ 52) (droppedBits num den * 2 ^ 52 + roundedSignificand num den) := rfl

theorem lt_of_droppedBits (num den : Nat) (h : 0 < den) : num < 2 ^ (53 + droppedBits num den) * den := by
  have hq : num / den < 2 ^ ((num / den).log2 + 1) := Nat.lt_log2_self
  have hle : 2 ^ ((num / den).log2 + 1) ≤ 2 ^ (53 + droppedBits num den) :=
    Nat.pow_le_pow_right (by decide) (by rw [droppedBits]; omega)
  exact (Nat.div_lt_iff_lt_mul h).1 (hq.trans_le hle)

theorem le_of_droppedBits (num den : Nat) (h : 0 < den) (hk : droppedBits num den ≠ 0) :
    2 ^ (52 + droppedBits num den) * den ≤ num := by
  have hq : num / den ≠ 0 := fun h0 => hk (by rw [droppedBits, h0, Nat.log2_zero])
  have hle := Nat.log2_self_le hq
  rw [show (num / den).log2 = 52 + droppedBits num den by rw [droppedBits] at hk ⊢; omega] at hle
  exact (Nat.le_div_iff_mul_le h).1 hle

/-- The magnitude lies between the first and the last significand of its number of steps; both are counted here in units of the
last place `den × 2^k`. -/
theorem droppedBits_spec (num den : Nat) (h : 0 < den) :
    num < 2 ^ 53 * (den * 2 ^ droppedBits num den) ∧
      (droppedBits num den = 0 ∨ 2 ^ 52 * (den * 2 ^ droppedBits num den) ≤ num) := by
  have hlt := lt_of_droppedBits num den h
  have hle := le_of_droppedBits num den h
  rw [Nat.pow_add, Nat.mul_assoc, Nat.mul_comm _ den] at hlt hle
  exact ⟨hlt, or_iff_not_imp_left.2 hle⟩

/-- The rounded significand is within half a unit of the last place, and even where it is exactly half of one away. -/
theorem roundedSignificand_spec (num den : Nat) (h : 0 < den) :
    2 * num ≤ (2 * roundedSignificand num den + 1) * (den * 2 ^ droppedBits num den) ∧
      2 * (roundedSignificand num den * (den * 2 ^ droppedBits num den)) ≤ 2 * num + den * 2 ^ droppedBits num den ∧
      ((2 * num = (2 * roundedSignificand num den + 1) * (den * 2 ^ droppedBits num den) ∨
          2 * (roundedSignificand num den * (den * 2 ^ droppedBits num den)) = 2 * num + den * 2 ^ droppedBits num den) →
        roundedSignificand num den % 2 = 0) :=
  roundHalfEven_spec num _ (Nat.mul_pos h (Nat.two_pow_pos _))

theorem roundedSignificand_range (num den : Nat) (h : 0 < den) :
    roundedSignificand num den ≤ 2 ^ 53 ∧ (droppedBits num den = 0 ∨ 2 ^ 52 ≤ roundedSignificand num den) := by
  obtain ⟨hlt, hge⟩ := droppedBits_spec num den h
  obtain ⟨hupper, hlower, -⟩ := roundedSignificand_spec num den h
  have hpos : 0 < den * 2 ^ droppedBits num den := Nat.mul_pos h (Nat.two_pow_pos _)
  generalize den * 2 ^ droppedBits num den = d at *
  generalize roundedSignificand num den = r at *
  refine ⟨?_, hge.imp_right fun hge => ?_⟩
  · by_contra hr
    have := Nat.mul_le_mul_right d (show 2 ^ 53 + 1 ≤ r by omega)
    omega
  · by_contra hr
    have := Nat.mul_le_mul_right d (show 2 * r + 1 ≤ 2 ^ 53 - 1 by omega)
    omega

/-- The exponent field of the rounded bits stays below `n + 3` exactly when the magnitude is below the middle between the last
significand at `n + 1` steps and the next power of two, where the tie goes up. -/
theorem roundedBits_lt_iff_threshold (num den n : Nat) (h : 0 < den) :
    droppedBits num den * 2 ^ 52 + roundedSignificand num den < (n + 3) * 2 ^ 52 ↔ num < (2 ^ 54 - 1) * (den * 2 ^ n) := by
  obtain ⟨hlt, hge⟩ := droppedBits_spec num den h
  obtain ⟨hr, hr'⟩ := roundedSignificand_range num den h
  obtain ⟨hupper, hlower, heven⟩ := roundedSignificand_spec num den h
  have hpos : 0 < den * 2 ^ n := Nat.mul_pos h (Nat.two_pow_pos n)
  generalize roundedSignificand num den = r at *
  generalize droppedBits num den = k at *
  obtain hk | rfl | hk := Nat.lt_trichotomy k (n + 1)
  · have hstep : den * 2 ^ k ≤ den * 2 ^ n := Nat.mul_le_mul_left den (Nat.pow_le_pow_right (by decide) (by omega))
    omega
  · rw [show den * 2 ^ (n + 1) = 2 * (den * 2 ^ n) by ring] at hupper hlower heven
    generalize den * 2 ^ n = e at *
    constructor
    · intro hbits
      have := Nat.mul_le_mul_right (2 * e) (show 2 * r + 1 ≤ 2 ^ 54 - 1 by omega)
      by_contra hnum
      have := heven (.inl (by omega))
      have := Nat.mul_le_mul_right (2 * e) (show 2 * r + 1 ≤ 2 ^ 54 - 3 by omega)
      omega
    · intro hnum
      by_contra hbits
      have := Nat.mul_le_mul_right (2 * e) (show 2 ^ 53 ≤ r by omega)
      omega
  · have hstep : den * 2 ^ (n + 2) ≤ den * 2 ^ k :=
      Nat.mul_le_mul_left den (Nat.pow_le_pow_right (by decide) (by omega))
    have hge := hge.resolve_left (by omega)
    rw [Nat.pow_add, ← Nat.mul_assoc] at hstep
    omega

/-- Below the threshold `2^1024 - 2^970`, and only there, `RN` stays below the infinity (R151). -/
theorem roundedBits_lt_iff (num den : Nat) (h : 0 < den) :
    droppedBits num den * 2 ^ 52 + roundedSignificand num den < 2047 * 2 ^ 52 ↔ num < overflowUnits * den := by
  rw [overflowUnits, Nat.mul_assoc, Nat.mul_comm _ den]
  exact roundedBits_lt_iff_threshold num den 2044 h

theorem roundMagnitude_of_lt (num den : Nat) (h : 0 < den) (hnum : num < overflowUnits * den) :
    roundMagnitude num den = droppedBits num den * 2 ^ 52 + roundedSignificand num den :=
  min_eq_right ((roundedBits_lt_iff num den h).2 hnum).le

theorem f64Finite_roundNearest (neg : Bool) (num den : Nat) (h : 0 < den) :
    f64Finite (roundNearest neg num den) = true ↔ num < overflowUnits * den := by
  rw [roundNearest_eq, f64Finite_signedBits _ _ (roundMagnitude_lt num den), ← roundedBits_lt_iff num den h,
    roundMagnitude_eq_parts]
  omega

theorem f64Mag_roundNearest (neg : Bool) (num den : Nat) (h : 0 < den) (hnum : num < overflowUnits * den) :
    f64Mag (roundNearest neg num den) = roundedSignificand num den * 2 ^ droppedBits num den := by
  have hlt := (roundedBits_lt_iff num den h).2 hnum
  obtain ⟨hr, hr'⟩ := roundedSignificand_range num den h
  rw [roundNearest_eq, roundMagnitude_of_lt num den h hnum, f64Mag_signedBits _ _ _ (by omega) hr hr']

theorem getLsbD_zero_roundNearest (neg : Bool) (num den : Nat) (h : 0 < den) (hnum : num < overflowUnits * den) :
    (roundNearest neg num den).getLsbD 0 = decide (roundedSignificand num den % 2 = 1) := by
  rw [BitVec.getLsbD, Nat.testBit_zero, roundNearest_eq, signedBits_toNat _ _ (roundMagnitude_lt num den),
    roundMagnitude_of_lt num den h hnum, signWeight]
  congr 1
  split <;> simp <;> omega

/-! ### Nearest -/

/-- No whole number is nearer to `num / d` than the rounded one, and only an even one has another equally near. -/
theorem roundHalfEven_nearest (num d c : Nat) (h : 0 < d) :
    |((roundHalfEven num d * d : Nat) : Int) - num| ≤ |((c * d : Nat) : Int) - num| ∧
      (|((roundHalfEven num d * d : Nat) : Int) - num| = |((c * d : Nat) : Int) - num| → c ≠ roundHalfEven num d →
        roundHalfEven num d % 2 = 0) := by
  obtain ⟨hupper, hlower, heven⟩ := roundHalfEven_spec num d h
  generalize roundHalfEven num d = r at *
  rw [show (2 * r + 1) * d = 2 * (r * d) + d by ring] at hupper heven
  simp only [abs_eq_max_neg]
  obtain hc | rfl | hc := Nat.lt_trichotomy c r
  · have := Nat.mul_le_mul_right d (show c + 1 ≤ r by omega)
    rw [Nat.add_mul, Nat.one_mul] at this
    exact ⟨by omega, fun heq _ => heven (.inr (by omega))⟩
  · exact ⟨le_rfl, fun _ hne => absurd rfl hne⟩
  · have := Nat.mul_le_mul_right d (show r + 1 ≤ c by omega)
    rw [Nat.add_mul, Nat.one_mul] at this
    exact ⟨by omega, fun heq _ => heven (.inl (by omega))⟩

/-- A finite magnitude is a whole number of units of the last place `2^k`, or below the first significand of `k` steps. -/
theorem f64Mag_multiple_or_lt (x : Word) (h : f64Finite x = true) (k : Nat) :
    (∃ c, f64Mag x = c * 2 ^ k) ∨ (k ≠ 0 ∧ f64Mag x < 2 ^ 52 * 2 ^ k) := by
  obtain ⟨k', r, hkr, -, -, hm⟩ := exists_significand x h
  rw [hm]
  rcases Nat.lt_or_ge k' k with hlt | hge
  · exact .inr ⟨by omega, hkr.mul_lt ⟨by decide, .inr le_rfl⟩ hlt⟩
  · exact .inl ⟨r * 2 ^ (k' - k), by rw [Nat.mul_assoc, ← Nat.pow_add, Nat.sub_add_cancel hge]⟩

/-- Settles O22: the data at least as large as the first significand of the quotient's number of steps are whole numbers of units
of its last place, of which `RN` takes the nearest; every other datum lies below that first significand, which lies below the
quotient. -/
theorem roundingIsToNearestTiesToEven : Obligations.RoundingIsToNearestTiesToEven := by
  intro neg num den hden hnum
  refine ⟨(f64Finite_roundNearest neg num den hden).2 hnum, f64Sign_roundNearest neg num den, fun x hx => ?_⟩
  have hpos : 0 < den * 2 ^ droppedBits num den := Nat.mul_pos hden (Nat.two_pow_pos _)
  have hmul (c : Nat) :
      ((c * 2 ^ droppedBits num den : Nat) : Int) * den = ((c * (den * 2 ^ droppedBits num den) : Nat) : Int) := by
    push_cast
    ring
  rw [getLsbD_zero_roundNearest neg num den hden hnum, f64Mag_roundNearest neg num den hden hnum, hmul,
    roundedSignificand]
  rcases f64Mag_multiple_or_lt x hx (droppedBits num den) with ⟨c, hc⟩ | ⟨hk, hlt⟩
  · obtain ⟨hle, heven⟩ := roundHalfEven_nearest num _ c hpos
    rw [hc, hmul]
    exact ⟨hle, fun heq hne => decide_eq_false (by have := heven heq (fun h => hne (h ▸ rfl)); omega)⟩
  · have hfirst := (droppedBits_spec num den hden).2.resolve_left hk
    have hle := (roundHalfEven_nearest num _ (2 ^ 52) hpos).1
    have hbelow : f64Mag x * den < 2 ^ 52 * (den * 2 ^ droppedBits num den) := by
      rw [Nat.mul_comm den, ← Nat.mul_assoc]
      exact Nat.mul_lt_mul_of_pos_right hlt hden
    have hfar : |((2 ^ 52 * (den * 2 ^ droppedBits num den) : Nat) : Int) - num| < |(f64Mag x : Int) * den - num| := by
      rw [← Int.natCast_mul, abs_eq_max_neg, abs_eq_max_neg]
      omega
    exact ⟨hle.trans hfar.le, fun heq => absurd heq (hle.trans_lt hfar).ne⟩

/-! ### Overflow, and what `RN` keeps -/

theorem f64IsInf_signedBits (neg : Bool) : f64IsInf (signedBits neg (2047 * 2 ^ 52)) = true := by
  cases neg <;> decide

theorem roundNearest_of_overflow (neg : Bool) (num den : Nat) (h : 0 < den) (hnum : overflowUnits * den ≤ num) :
    roundNearest neg num den = signedBits neg (2047 * 2 ^ 52) := by
  have hge := Nat.le_of_not_lt (mt (roundedBits_lt_iff num den h).1 (Nat.not_lt.2 hnum))
  rw [roundNearest_eq, roundMagnitude_eq_parts, Nat.min_eq_left hge]

@[simp] theorem roundNearest_zero (neg : Bool) (den : Nat) : roundNearest neg 0 den = signedBits neg 0 := by
  rw [roundNearest_eq, roundMagnitude_eq]
  cases hden : den with
  | zero => rfl
  | succ n => simp [roundHalfEven, Nat.log2_zero]

theorem signedBits_zero (neg : Bool) : signedBits neg 0 = if neg then 0x8000000000000000#64 else 0#64 := by
  cases neg <;> decide

/-- A quotient that is the magnitude of a datum is nearest to that datum, so `RN` keeps it under either sign. -/
theorem f64Mag_roundNearest_of_datum (neg : Bool) (w : Word) (den : Nat) (hw : f64Finite w = true) (h : 0 < den) :
    f64Finite (roundNearest neg (f64Mag w * den) den) = true ∧
      f64Mag (roundNearest neg (f64Mag w * den) den) = f64Mag w := by
  have hlt := Nat.mul_lt_mul_of_pos_right (f64Mag_lt_overflowUnits w hw) h
  obtain ⟨hfinite, -, hnearest⟩ := roundingIsToNearestTiesToEven neg _ den h hlt
  have hzero := (hnearest w hw).1
  rw [Int.natCast_mul, sub_self, abs_zero, abs_nonpos_iff, sub_eq_zero] at hzero
  exact ⟨hfinite, Nat.eq_of_mul_eq_mul_right h (by exact_mod_cast hzero)⟩

theorem roundNearest_of_datum (w : Word) (den : Nat) (hw : f64Finite w = true) (h : 0 < den) :
    roundNearest (f64Sign w) (f64Mag w * den) den = w := by
  obtain ⟨hfinite, hmag⟩ := f64Mag_roundNearest_of_datum (f64Sign w) w den hw h
  exact eq_of_f64Mag_eq _ w hfinite hw (f64Sign_roundNearest _ _ den) hmag

/-- Settles O23: at the threshold the rounded bits reach the infinity, and a representable quotient is its own nearest datum. -/
theorem roundingOverflowsAndKeepsRepresentable : Obligations.RoundingOverflowsAndKeepsRepresentable := by
  refine ⟨fun neg num den hden hnum => ⟨?_, f64Sign_roundNearest neg num den⟩,
    fun neg den _ => ⟨?_, f64Sign_roundNearest neg 0 den⟩, roundNearest_of_datum⟩
  · rw [roundNearest_of_overflow neg num den hden hnum, f64IsInf_signedBits]
  · rw [roundNearest_zero]
    cases neg <;> decide

/-! ### Monotonic -/

/-- Rounding looks at the quotient only, not at how it is written. -/
theorem roundMagnitude_mul_mul (num den c : Nat) (h : 0 < c) :
    roundMagnitude (num * c) (den * c) = roundMagnitude num den := by
  have hhalf (d : Nat) : roundHalfEven (num * c) (d * c) = roundHalfEven num d := by
    simp only [roundHalfEven, Nat.mul_mod_mul_right, Nat.mul_div_mul_right _ _ h, ← Nat.mul_assoc, Nat.mul_lt_mul_right h,
      Nat.mul_left_inj h.ne']
  rw [roundMagnitude_eq, roundMagnitude_eq, Nat.mul_div_mul_right _ _ h, Nat.mul_right_comm, hhalf]

theorem roundNearest_mul_mul (neg : Bool) (num den c : Nat) (h : 0 < c) :
    roundNearest neg (num * c) (den * c) = roundNearest neg num den := by
  rw [roundNearest_eq, roundNearest_eq, roundMagnitude_mul_mul num den c h]

/-- The nearest data of two magnitudes over one denominator are in their order: were they not, each magnitude would be at their
middle, so the magnitudes would be equal. -/
theorem f64Mag_roundNearest_mono (neg : Bool) (n₁ n₂ den : Nat) (h : 0 < den) (hle : n₁ ≤ n₂)
    (h₂ : f64Finite (roundNearest neg n₂ den) = true) :
    f64Finite (roundNearest neg n₁ den) = true ∧ f64Mag (roundNearest neg n₁ den) ≤ f64Mag (roundNearest neg n₂ den) := by
  have hlt₂ := (f64Finite_roundNearest neg n₂ den h).1 h₂
  obtain ⟨h₁, -, hnearest₁⟩ := roundingIsToNearestTiesToEven neg n₁ den h (hle.trans_lt hlt₂)
  obtain ⟨-, -, hnearest₂⟩ := roundingIsToNearestTiesToEven neg n₂ den h hlt₂
  refine ⟨h₁, Nat.le_of_not_lt fun hlt => ?_⟩
  have hle₁ := (hnearest₁ _ h₂).1
  have hle₂ := (hnearest₂ _ h₁).1
  have hmul : (f64Mag (roundNearest neg n₂ den) : Int) * den < f64Mag (roundNearest neg n₁ den) * den := by
    exact_mod_cast Nat.mul_lt_mul_of_pos_right hlt h
  simp only [abs_eq_max_neg] at hle₁ hle₂
  have heq : n₁ = n₂ := by omega
  exact hlt.ne (by rw [heq])

/-- Settles O24: the two quotients over one denominator. -/
theorem roundingIsMonotonic : Obligations.RoundingIsMonotonic := by
  intro neg n₁ d₁ n₂ d₂ h₁ h₂ hle hfinite
  rw [← roundNearest_mul_mul neg n₁ d₁ d₂ h₂, ← roundNearest_mul_mul neg n₂ d₂ d₁ h₁, Nat.mul_comm d₂] at *
  exact f64Mag_roundNearest_mono neg _ _ _ (Nat.mul_pos h₁ h₂) hle hfinite

/-! ### The operations, by the classes of their operands -/

theorem f64IsNaN_of_finite {w : Word} (h : f64Finite w = true) : f64IsNaN w = false := ((f64Finite_iff_not_special w).1 h).1

theorem f64IsInf_of_finite {w : Word} (h : f64Finite w = true) : f64IsInf w = false := ((f64Finite_iff_not_special w).1 h).2

theorem f64IsNaN_of_inf {w : Word} (h : f64IsInf w = true) : f64IsNaN w = false := by
  rcases (f64IsInf_iff w).1 h with rfl | rfl <;> decide

theorem f64IsZero_of_inf {w : Word} (h : f64IsInf w = true) : f64IsZero w = false := by
  rcases (f64IsInf_iff w).1 h with rfl | rfl <;> decide

theorem signedBits_infinity (neg : Bool) :
    signedBits neg (2047 * 2 ^ 52) = if neg then 0xFFF0000000000000#64 else 0x7FF0000000000000#64 := by
  cases neg <;> decide

theorem f64IsNaN_nanResult : f64IsNaN nanResult = true := by decide

theorem f64Sign_flipSign (y : Word) : f64Sign (y ^^^ 0x8000000000000000#64) = !f64Sign y := by
  simp [f64Sign]

theorem f64Val_flipSign (y : Word) : f64Val (y ^^^ 0x8000000000000000#64) = -f64Val y := by
  rw [f64Val, f64Val, f64Sign_flipSign, f64Mag_flipSign]
  cases f64Sign y <;> simp

theorem fmul_of_finite (x y : Word) (hx : f64Finite x = true) (hy : f64Finite y = true) :
    fmul x y = roundNearest (f64Sign x != f64Sign y) (f64Mag x * f64Mag y) (2 ^ 1074) := by
  simp only [fmul, f64IsNaN_of_finite, f64IsInf_of_finite, hx, hy, Bool.or_self, Bool.false_eq_true, if_false]

theorem fmul_of_zero_product (x y : Word) (hx : f64Finite x = true) (hy : f64Finite y = true)
    (h : f64Mag x * f64Mag y = 0) : fmul x y = signedBits (f64Sign x != f64Sign y) 0 := by
  rw [fmul_of_finite x y hx hy, h, roundNearest_zero]

theorem fmul_of_inf (x y : Word) (hx : f64IsInf x = true) (hy : f64IsNaN y = false) :
    fmul x y = (if f64IsZero y then nanResult else signedBits (f64Sign x != f64Sign y) (2047 * 2 ^ 52)) := by
  simp [fmul, hx, hy, f64IsNaN_of_inf, f64IsZero_of_inf, signedBits]

theorem fmul_comm (x y : Word) : fmul x y = fmul y x := by
  rw [fmul, fmul, Bool.or_comm (f64IsNaN x), Bool.or_comm (f64IsInf x), Bool.or_comm (f64IsZero x), Nat.mul_comm (f64Mag x),
    show (f64Sign x != f64Sign y) = (f64Sign y != f64Sign x) from bne_comm]

theorem fadd_of_zero_sum (x y : Word) (hx : f64Finite x = true) (hy : f64Finite y = true) (h : f64Val x + f64Val y = 0) :
    fadd x y = signedBits (f64Sign x && f64Sign y) 0 := by
  simp [fadd, f64IsNaN_of_finite, f64IsInf_of_finite, hx, hy, h]

theorem fadd_of_pos_sum (x y : Word) (hx : f64Finite x = true) (hy : f64Finite y = true) (h : 0 < f64Val x + f64Val y) :
    fadd x y = roundNearest false (f64Val x + f64Val y).toNat 1 := by
  have habs : (f64Val x + f64Val y).natAbs = (f64Val x + f64Val y).toNat := by omega
  simp [fadd, f64IsNaN_of_finite, f64IsInf_of_finite, hx, hy, h.ne', h.not_gt, habs]

theorem fadd_of_neg_sum (x y : Word) (hx : f64Finite x = true) (hy : f64Finite y = true) (h : f64Val x + f64Val y < 0) :
    fadd x y = roundNearest true (-(f64Val x + f64Val y)).toNat 1 := by
  have habs : (f64Val x + f64Val y).natAbs = (-(f64Val x + f64Val y)).toNat := by omega
  simp only [fadd, f64IsNaN_of_finite, f64IsInf_of_finite, hx, hy, h.ne, h, habs, Bool.or_self, Bool.false_eq_true,
    if_false, decide_true]

/-- Two finite data whose sum is 0 are both negative only as two negative zeros. -/
theorem both_negative_iff_of_zero_sum (x y : Word) (hx : f64Finite x = true) (hy : f64Finite y = true)
    (h : f64Val x + f64Val y = 0) :
    (f64Sign x && f64Sign y) = true ↔ x = 0x8000000000000000#64 ∧ y = 0x8000000000000000#64 := by
  rw [Bool.and_eq_true]
  constructor
  · rintro ⟨hsx, hsy⟩
    rw [f64Val, f64Val, if_pos hsx, if_pos hsy] at h
    exact ⟨eq_of_f64Mag_eq x _ hx (by decide) hsx (show f64Mag x = 0 by omega),
      eq_of_f64Mag_eq y _ hy (by decide) hsy (show f64Mag y = 0 by omega)⟩
  · rintro ⟨rfl, rfl⟩
    decide

theorem fadd_of_nan (x y : Word) (h : f64IsNaN x = true ∨ f64IsNaN y = true) : fadd x y = nanResult := by
  rw [fadd, if_pos (by simpa using h)]

theorem fmul_of_nan (x y : Word) (h : f64IsNaN x = true ∨ f64IsNaN y = true) : fmul x y = nanResult := by
  rw [fmul, if_pos (by simpa using h)]

theorem fadd_of_inf_of_finite (x y : Word) (hx : f64IsInf x = true) (hy : f64Finite y = true) :
    fadd x y = x ∧ fadd y x = x := by
  simp [fadd, f64IsNaN_of_finite, f64IsInf_of_finite, f64IsNaN_of_inf, hx, hy]

theorem fadd_of_inf_of_inf (x y : Word) (hx : f64IsInf x = true) (hy : f64IsInf y = true) :
    fadd x y = if f64Sign x = f64Sign y then x else nanResult := by
  simp [fadd, f64IsNaN_of_inf, hx, hy]

/-- Settles O25: each clause is what an operation gives on one class of operands. -/
theorem arithmeticRoundsOnceAndSignsZeros : Obligations.ArithmeticRoundsOnceAndSignsZeros := by
  refine ⟨fun x y hx hy => ⟨fmul_of_finite x y hx hy, fun h => ?_, fun h => ?_, fadd_of_pos_sum x y hx hy,
      fadd_of_neg_sum x y hx hy⟩, fun x y => ⟨rfl, f64Val_flipSign y⟩, fun x y h => ⟨?_, ?_, ?_⟩, fadd_of_inf_of_finite,
    fun x y hx hy => ⟨fun h => ?_, fun h => ?_⟩, fun x y hx hy => ⟨fun h => ?_, fun h => ⟨?_, fmul_comm y x⟩⟩⟩
  · rw [fmul_of_zero_product x y hx hy h, signedBits_zero]
    simp
  · rw [fadd_of_zero_sum x y hx hy h, signedBits_zero]
    simp only [both_negative_iff_of_zero_sum x y hx hy h]
  · rw [fadd_of_nan x y h, f64IsNaN_nanResult]
  · rw [fsub, fadd_of_nan x _ (by rwa [f64IsNaN_flipSign]), f64IsNaN_nanResult]
  · rw [fmul_of_nan x y h, f64IsNaN_nanResult]
  · rw [fadd_of_inf_of_inf x y hx hy, if_pos h]
  · rw [fadd_of_inf_of_inf x y hx hy, if_neg h, f64IsNaN_nanResult]
  · rw [fmul_comm y x, fmul_of_inf x y hx hy, if_pos h, f64IsNaN_nanResult]
    exact ⟨rfl, rfl⟩
  · rw [fmul_of_inf x y hx hy, h, if_neg Bool.false_ne_true, signedBits_infinity]
    simp

/-! ### The conversion to the unit interval -/

/-! Powers with a variable exponent: a power with one of the exponents of the format is too large to be written out. -/

theorem two_pow_mul_two_pow (a b c : Nat) (h : a + b = c) : 2 ^ a * 2 ^ b = 2 ^ c := by rw [← h, Nat.pow_add]

theorem mul_pow_mul_pow (n a b c : Nat) (h : a + b = c) : n * 2 ^ a * 2 ^ b = n * 2 ^ c := by
  rw [Nat.mul_assoc, two_pow_mul_two_pow a b c h]

theorem mul_pow_lt_pow (n a b c : Nat) (hn : n < 2 ^ a) (h : a + b = c) : n * 2 ^ b < 2 ^ c := by
  rw [← two_pow_mul_two_pow a b c h]
  exact Nat.mul_lt_mul_of_pos_right hn (Nat.two_pow_pos b)

theorem natCast_mul_two_pow (x y m n : Nat) (h : x * 2 ^ m = y * 2 ^ n) : (x : Int) * 2 ^ m = y * 2 ^ n := by
  exact_mod_cast h

theorem natCast_lt_two_pow (m n : Nat) (h : m < 2 ^ n) : (m : Int) < 2 ^ n := by exact_mod_cast h

/-- The fraction of the layout of R156: `u` moved up to the 52 bits below its top bit, position `k`. -/
def unitFraction (u k : Nat) : Nat := (u - 2 ^ k) * 2 ^ (52 - k)

theorem unitFraction_add (u k : Nat) (hk : k ≤ 52) (h : 2 ^ k ≤ u) : unitFraction u k + 2 ^ 52 = u * 2 ^ (52 - k) := by
  have hpow := two_pow_mul_two_pow k (52 - k) 52 (Nat.add_sub_cancel' hk)
  rw [unitFraction, Nat.sub_mul, hpow, Nat.sub_add_cancel]
  exact hpow ▸ Nat.mul_le_mul_right _ h

theorem unitFraction_lt (u k : Nat) (hk : k ≤ 52) (h : 2 ^ k ≤ u) (hlt : u < 2 ^ (k + 1)) : unitFraction u k < 2 ^ 52 := by
  have hsum := unitFraction_add u k hk h
  have htop : u * 2 ^ (52 - k) < 2 ^ (k + 1) * 2 ^ (52 - k) := Nat.mul_lt_mul_of_pos_right hlt (Nat.two_pow_pos _)
  rw [← Nat.pow_add, show k + 1 + (52 - k) = 53 by omega] at htop
  omega

theorem unitFraction_mod (u k : Nat) (hk : k ≤ 31) : unitFraction u k % 2 ^ 21 = 0 :=
  Nat.mod_eq_zero_of_dvd ((Nat.pow_dvd_pow 2 (by omega)).mul_left _)

theorem topBit_le (u : Word32) (k : Nat) (h : 2 ^ k ≤ u.toNat) : k ≤ 31 :=
  Nat.lt_succ_iff.1 ((Nat.pow_lt_pow_iff_right (by decide)).1 (h.trans_lt u.isLt))

/-- The layout of R156, by the position of the top bit. -/
theorem u32ToUnit_eq (u : Word32) (k : Nat) (h : 2 ^ k ≤ u.toNat) (hlt : u.toNat < 2 ^ (k + 1)) :
    u32ToUnit u = signedBits false ((991 + k) * 2 ^ 52 + unitFraction u.toNat k) := by
  have hpos := (Nat.two_pow_pos k).trans_le h
  have hlog : u.toNat.log2 = k := (Nat.log2_eq_iff hpos.ne').2 ⟨h, hlt⟩
  have hne : u ≠ 0 := fun h0 => hpos.ne' (by rw [h0]; rfl)
  rw [u32ToUnit, if_neg hne, hlog, signedBits, signWeight, if_neg Bool.false_ne_true, Nat.zero_add, unitFraction]

theorem exists_topBit (u : Word32) (h : u ≠ 0) : ∃ k, 2 ^ k ≤ u.toNat ∧ u.toNat < 2 ^ (k + 1) :=
  ⟨u.toNat.log2, Nat.log2_self_le (fun h0 => h (BitVec.eq_of_toNat_eq h0)), Nat.lt_log2_self⟩

/-- The datum is `u × 2^1042` units of 2^-1074 (R156). -/
theorem u32ToUnit_datum (u : Word32) :
    f64Finite (u32ToUnit u) = true ∧ f64Sign (u32ToUnit u) = false ∧ f64Mag (u32ToUnit u) = u.toNat * 2 ^ 1042 := by
  by_cases h0 : u = 0
  · rw [h0, show (0 : Word32).toNat = 0 from rfl, Nat.zero_mul]
    decide
  · obtain ⟨k, h, hlt⟩ := exists_topBit u h0
    have hk := topBit_le u k h
    have hsum := unitFraction_add u.toNat k (by omega) h
    have hfrac := unitFraction_lt u.toNat k (by omega) h hlt
    obtain ⟨hfinite, hsign, hmag⟩ := signedBits_of_significand false (990 + k) (u.toNat * 2 ^ (52 - k))
      ⟨by omega, .inr (by omega)⟩ (by omega)
    rw [u32ToUnit_eq u k h hlt,
      show (991 + k) * 2 ^ 52 + unitFraction u.toNat k = (990 + k) * 2 ^ 52 + u.toNat * 2 ^ (52 - k) by omega]
    exact ⟨hfinite, hsign, hmag.trans (mul_pow_mul_pow _ _ _ _ (by omega))⟩

theorem u32ToUnit_fields (u : Word32) (k : Nat) (h : 2 ^ k ≤ u.toNat) (hlt : u.toNat < 2 ^ (k + 1)) :
    f64Exp (u32ToUnit u) = 991 + k ∧ f64Frac (u32ToUnit u) = unitFraction u.toNat k := by
  have hk := topBit_le u k h
  have hfrac := unitFraction_lt u.toNat k (by omega) h hlt
  rw [u32ToUnit_eq u k h hlt, f64Exp_signedBits _ _ (by omega), f64Frac_signedBits _ _ (by omega)]
  omega

theorem u32ToUnit_frac_mod (u : Word32) : f64Frac (u32ToUnit u) % 2 ^ 21 = 0 := by
  by_cases h0 : u = 0
  · rw [h0]
    decide
  · obtain ⟨k, h, hlt⟩ := exists_topBit u h0
    rw [(u32ToUnit_fields u k h hlt).2, unitFraction_mod _ k (topBit_le u k h)]

/-- The datum is below 1, which is 2^1074 units. -/
theorem u32ToUnit_mag_lt (u : Word32) : f64Mag (u32ToUnit u) < 2 ^ 1074 := by
  rw [(u32ToUnit_datum u).2.2]
  exact mul_pow_lt_pow _ 32 1042 1074 u.isLt rfl

theorem u32ToUnit_mag_scaled (u : Word32) : f64Mag (u32ToUnit u) * 2 ^ 32 = u.toNat * 2 ^ 1074 := by
  rw [(u32ToUnit_datum u).2.2]
  exact mul_pow_mul_pow _ 1042 32 1074 rfl

/-- Settles O26: the layout of R156 is a significand, `u` moved up to 53 bits, with its steps. -/
theorem unitConversionIsExact : Obligations.UnitConversionIsExact := by
  refine ⟨fun u => ?_, by decide, by decide, by decide, by decide, by decide⟩
  obtain ⟨hfinite, hsign, -⟩ := u32ToUnit_datum u
  refine ⟨hfinite, hsign, u32ToUnit_mag_scaled u, u32ToUnit_mag_lt u, u32ToUnit_frac_mod u, fun h0 => h0 ▸ rfl,
    fun k h hlt => ?_⟩
  rw [Nat.shiftLeft_eq]
  exact u32ToUnit_fields u k h hlt

/-! ### The datapath with a fixed exponent -/

/-- The word with the exponent of 1 and the fraction `u × 2^20` is `2^52 + u × 2^20` at the 1022 steps of 1. -/
theorem fixedExponentWord_eq (u : Word32) :
    (0x3FF#12 ++ u ++ 0#20 : Word) = signedBits false (1022 * 2 ^ 52 + (2 ^ 52 + u.toNat * 2 ^ 20)) := by
  have hlt := u.isLt
  apply BitVec.eq_of_toNat_eq
  rw [signedBits_toNat _ _ (by omega), BitVec.toNat_append, BitVec.toNat_append, ← Nat.shiftLeft_add_eq_or_of_lt hlt,
    ← Nat.shiftLeft_add_eq_or_of_lt (by decide), Nat.shiftLeft_eq, Nat.shiftLeft_eq, BitVec.toNat_ofNat, BitVec.toNat_ofNat,
    signWeight, if_neg Bool.false_ne_true]
  omega

theorem minusOne_eq : (0x3FF0000000000000#64 ^^^ 0x8000000000000000#64 : Word) = signedBits true (1022 * 2 ^ 52 + 2 ^ 52) := by
  decide

/-- Settles O27: the exact difference is `u × 2^1042` units, which is the magnitude of a datum, so `RN` keeps it. -/
theorem fixedExponentDatapathAgrees : Obligations.FixedExponentDatapathAgrees := by
  intro u
  have hlt := u.isLt
  obtain ⟨hx, hxsign, hxmag⟩ := signedBits_of_significand false 1022 (2 ^ 52 + u.toNat * 2 ^ 20)
    ⟨by omega, .inr (by omega)⟩ (by decide)
  obtain ⟨hy, hysign, hymag⟩ := signedBits_of_significand true 1022 (2 ^ 52) ⟨by decide, .inr le_rfl⟩ (by decide)
  obtain ⟨hunit, hunitsign, hunitmag⟩ := u32ToUnit_datum u
  rw [u32ToUnitByFixedExponent, fsub, fixedExponentWord_eq, minusOne_eq]
  generalize signedBits false _ = x at *
  generalize signedBits true _ = y at *
  have hmag : f64Mag x = f64Mag y + f64Mag (u32ToUnit u) := by
    rw [hxmag, hymag, hunitmag, Nat.add_mul, mul_pow_mul_pow _ 20 1022 1042 rfl]
  have hsum : f64Val x + f64Val y = (f64Mag (u32ToUnit u) : Int) := by
    rw [f64Val, f64Val, hxsign, hysign, hmag, if_neg Bool.false_ne_true, if_pos rfl]
    omega
  by_cases h0 : u = 0
  · rw [fadd_of_zero_sum x y hx hy (by rw [hsum, h0]; rfl), hxsign, h0]
    rfl
  · have hpos : 0 < f64Mag (u32ToUnit u) := by
      rw [hunitmag]
      exact Nat.mul_pos (Nat.pos_of_ne_zero fun h => h0 (BitVec.eq_of_toNat_eq h)) (pow_pos two_pos 1042)
    rw [fadd_of_pos_sum x y hx hy (by omega), hsum, Int.toNat_natCast]
    simpa [hunitsign] using roundNearest_of_datum (u32ToUnit u) 1 hunit Nat.one_pos

/-! ### Bounds on a rounded magnitude -/

/-- `RN` moves a magnitude by at most half a unit, or one part in 2^53. -/
theorem f64Mag_roundNearest_error (neg : Bool) (num den : Nat) (h : 0 < den)
    (hfinite : f64Finite (roundNearest neg num den) = true) :
    2 ^ 53 * (f64Mag (roundNearest neg num den) * den) ≤ (2 ^ 53 + 1) * num + 2 ^ 52 * den := by
  obtain ⟨-, hlower, -⟩ := roundedSignificand_spec num den h
  rw [f64Mag_roundNearest neg num den h ((f64Finite_roundNearest neg num den h).1 hfinite), Nat.mul_assoc,
    Nat.mul_comm _ den]
  obtain hk | hge := (droppedBits_spec num den h).2
  · rw [hk, Nat.pow_zero, Nat.mul_one] at hlower ⊢
    omega
  · omega

theorem f64Mag_roundNearest_le_datum (neg : Bool) (num den : Nat) (z : Word) (h : 0 < den) (hz : f64Finite z = true)
    (hle : num ≤ f64Mag z * den) :
    f64Finite (roundNearest neg num den) = true ∧ f64Mag (roundNearest neg num den) ≤ f64Mag z := by
  obtain ⟨hfinite, hmag⟩ := f64Mag_roundNearest_of_datum neg z den hz h
  exact hmag ▸ f64Mag_roundNearest_mono neg num _ den h hle hfinite

theorem datum_le_f64Mag_roundNearest (neg : Bool) (num den : Nat) (z : Word) (h : 0 < den) (hz : f64Finite z = true)
    (hle : f64Mag z * den ≤ num) (hfinite : f64Finite (roundNearest neg num den) = true) :
    f64Mag z ≤ f64Mag (roundNearest neg num den) :=
  (f64Mag_roundNearest_of_datum neg z den hz h).2 ▸ (f64Mag_roundNearest_mono neg _ num den h hle hfinite).2

theorem f64Val_of_positive (w : Word) (h : f64Sign w = false) : f64Val w = f64Mag w := by
  rw [f64Val, h, if_neg Bool.false_ne_true]

theorem f64Val_of_negative (w : Word) (h : f64Sign w = true) : f64Val w = -f64Mag w := if_pos h

theorem f64Val_cases (w : Word) :
    (f64Sign w = false ∧ f64Val w = f64Mag w) ∨ (f64Sign w = true ∧ f64Val w = -f64Mag w) :=
  (Bool.eq_false_or_eq_true (f64Sign w)).symm.imp (fun h => ⟨h, f64Val_of_positive w h⟩)
    fun h => ⟨h, f64Val_of_negative w h⟩

/-- A sum between the values of two data rounds to a datum between them. -/
theorem fadd_between (x y low high : Word) (hx : f64Finite x = true) (hy : f64Finite y = true)
    (hlow : f64Finite low = true) (hhigh : f64Finite high = true) (hge : f64Val low ≤ f64Val x + f64Val y)
    (hle : f64Val x + f64Val y ≤ f64Val high) :
    f64Finite (fadd x y) = true ∧ f64Val low ≤ f64Val (fadd x y) ∧ f64Val (fadd x y) ≤ f64Val high := by
  have hlowcases := f64Val_cases low
  have hhighcases := f64Val_cases high
  obtain hneg | hzero | hpos := Int.lt_trichotomy (f64Val x + f64Val y) 0
  · rw [fadd_of_neg_sum x y hx hy hneg, f64Val_of_negative _ (f64Sign_roundNearest true _ 1)]
    generalize f64Val x + f64Val y = sum at *
    obtain ⟨hfinite, hmag⟩ := f64Mag_roundNearest_le_datum true (-sum).toNat 1 low Nat.one_pos hlow (by omega)
    refine ⟨hfinite, by omega, ?_⟩
    obtain ⟨-, hval⟩ | ⟨-, hval⟩ := hhighcases
    · omega
    · have := datum_le_f64Mag_roundNearest true (-sum).toNat 1 high Nat.one_pos hhigh (by omega) hfinite
      omega
  · have hval : f64Val (fadd x y) = 0 := by
      rw [fadd_of_zero_sum x y hx hy hzero]
      cases f64Sign x && f64Sign y <;> decide
    have hfinite : f64Finite (fadd x y) = true := by
      rw [fadd_of_zero_sum x y hx hy hzero]
      cases f64Sign x && f64Sign y <;> decide
    exact ⟨hfinite, by omega, by omega⟩
  · rw [fadd_of_pos_sum x y hx hy hpos, f64Val_of_positive _ (f64Sign_roundNearest false _ 1)]
    generalize f64Val x + f64Val y = sum at *
    obtain ⟨hfinite, hmag⟩ := f64Mag_roundNearest_le_datum false sum.toNat 1 high Nat.one_pos hhigh (by omega)
    refine ⟨hfinite, ?_, by omega⟩
    obtain ⟨-, hval⟩ | ⟨-, hval⟩ := hlowcases
    · have := datum_le_f64Mag_roundNearest false sum.toNat 1 low Nat.one_pos hlow (by omega) hfinite
      omega
    · omega

/-! ### A scaled base -/

/-- The product with a base is `RN` of `u × 2^-32` parts of the other factor, with its sign. -/
theorem fmul_u32ToUnit (u : Word32) (t : Word) (ht : f64Finite t = true) :
    fmul (u32ToUnit u) t = roundNearest (f64Sign t) (u.toNat * f64Mag t) (2 ^ 32) := by
  obtain ⟨hfinite, hsign, hmag⟩ := u32ToUnit_datum u
  rw [fmul_of_finite _ t hfinite ht, hsign, hmag, Bool.false_bne, Nat.mul_right_comm,
    ← roundNearest_mul_mul _ (u.toNat * f64Mag t) (2 ^ 32) (2 ^ 1042) (pow_pos two_pos 1042),
    two_pow_mul_two_pow 32 1042 1074 rfl]

theorem f64Sign_fmul_u32ToUnit (u : Word32) (t : Word) (ht : f64Finite t = true) :
    f64Sign (fmul (u32ToUnit u) t) = f64Sign t := by
  rw [fmul_u32ToUnit u t ht, f64Sign_roundNearest]

/-- The scaled base is finite and not larger than the factor, which is itself a datum. -/
theorem fmul_u32ToUnit_le (u : Word32) (t : Word) (ht : f64Finite t = true) :
    f64Finite (fmul (u32ToUnit u) t) = true ∧ f64Mag (fmul (u32ToUnit u) t) ≤ f64Mag t := by
  rw [fmul_u32ToUnit u t ht]
  refine f64Mag_roundNearest_le_datum _ _ _ t (by decide) ht ?_
  rw [Nat.mul_comm]
  exact Nat.mul_le_mul_left _ u.isLt.le

/-- The scaled base is less than the factor by the factor's part in 2^32, up to what `RN` may add. -/
theorem fmul_u32ToUnit_error (u : Word32) (t : Word) (ht : f64Finite t = true) :
    2 ^ 85 * f64Mag (fmul (u32ToUnit u) t) ≤ (2 ^ 53 + 1) * ((2 ^ 32 - 1) * f64Mag t) + 2 ^ 84 := by
  have hfinite := (fmul_u32ToUnit_le u t ht).1
  rw [fmul_u32ToUnit u t ht] at hfinite ⊢
  have herror := f64Mag_roundNearest_error _ _ _ (by decide) hfinite
  have hu : u.toNat * f64Mag t ≤ (2 ^ 32 - 1) * f64Mag t := Nat.mul_le_mul_right _ (Nat.le_sub_one_of_lt u.isLt)
  omega

/-- A factor that is not subnormal is not reached (R161). -/
theorem fmul_u32ToUnit_lt (u : Word32) (t : Word) (ht : f64Finite t = true) (hexp : 1 ≤ f64Exp t) :
    f64Mag (fmul (u32ToUnit u) t) < f64Mag t := by
  have herror := fmul_u32ToUnit_error u t ht
  have hmag : 2 ^ 52 ≤ f64Mag t := by
    rw [f64Mag, if_neg (by omega)]
    exact (Nat.le_add_right _ _).trans (Nat.le_mul_of_pos_right _ (Nat.two_pow_pos _))
  omega

/-- A base scaled by a rounded difference is not larger than the exact difference: one below 2^53 units is not rounded, and of a
larger one the base leaves out more than the two roundings can add. -/
theorem fmul_u32ToUnit_roundNearest_le (u : Word32) (n : Nat) (h : f64Finite (roundNearest false n 1) = true) :
    f64Mag (fmul (u32ToUnit u) (roundNearest false n 1)) ≤ n := by
  rcases Nat.lt_or_ge n (2 ^ 53) with hlt | hge
  · obtain ⟨z, hz, -, hmag⟩ := exists_datum false n 0 hlt (Nat.zero_le _)
    have hle := (fmul_u32ToUnit_le u _ h).2
    have hexact := (f64Mag_roundNearest_of_datum false z 1 hz Nat.one_pos).2
    rw [hmag, Nat.pow_zero, Nat.mul_one, Nat.mul_one] at hexact
    exact hle.trans hexact.le
  · have hproduct := fmul_u32ToUnit_error u _ h
    have hdifference := f64Mag_roundNearest_error false n 1 Nat.one_pos h
    omega

/-- The scaled base lies between 0 and the factor (R161). -/
theorem fmul_u32ToUnit_between (u : Word32) (t : Word) (ht : f64Finite t = true) :
    (0 < f64Val t → 0 ≤ f64Val (fmul (u32ToUnit u) t) ∧ f64Val (fmul (u32ToUnit u) t) ≤ f64Val t) ∧
      (f64Val t < 0 → f64Val t ≤ f64Val (fmul (u32ToUnit u) t) ∧ f64Val (fmul (u32ToUnit u) t) ≤ 0) := by
  have hle := (fmul_u32ToUnit_le u t ht).2
  have hsign := f64Sign_fmul_u32ToUnit u t ht
  obtain ⟨hs, hval⟩ | ⟨hs, hval⟩ := f64Val_cases t
  · rw [f64Val_of_positive _ (hsign.trans hs)]
    omega
  · rw [f64Val_of_negative _ (hsign.trans hs)]
    omega

/-- The output 0 scales a negative factor to -0 (R161). -/
theorem fmul_u32ToUnit_of_zero (u : Word32) (t : Word) (ht : f64Finite t = true) (hu : u.toNat = 0) (hneg : f64Val t < 0) :
    fmul (u32ToUnit u) t = 0x8000000000000000#64 := by
  obtain ⟨-, hval⟩ | ⟨hs, -⟩ := f64Val_cases t
  · omega
  · rw [fmul_u32ToUnit u t ht, hs, hu, Nat.zero_mul, roundNearest_zero, signedBits_zero, if_pos rfl]

/-! ### The base of a draw -/

theorem nextBase_eq (s : State) : u32ToUnit (xshRr s.lcgState) = nextBase s := by
  rw [nextBase, ← xshRr_lcgState_toNat, BitVec.ofNat_toNat, BitVec.setWidth_eq]

/-- The base that the spec's worked examples draw. -/
theorem nextBase_of_atS42 (s : State) (h : AtS42 s) : nextBase s = 0x3FE85EAF7AC00000#64 := by
  rw [← nextBase_eq, xshRr_of_atS42 s h]
  decide

theorem exec_nextflt0 (s : State) : exec .nextflt0 s = .next (respond (nextBase s) (nextU32 s).2) := by
  rw [← nextBase_eq]
  rfl

/-- Settles O28: the base is the datum of the output that the draw makes. -/
theorem nextFlt0RespondsTheBase : Obligations.NextFlt0RespondsTheBase := by
  refine ⟨fun a b => decode_mkPacket _ a b, fun s => ?_⟩
  obtain ⟨hfinite, hsign, -⟩ := u32ToUnit_datum (xshRr s.lcgState)
  have hscaled := u32ToUnit_mag_scaled (xshRr s.lcgState)
  have hlt := u32ToUnit_mag_lt (xshRr s.lcgState)
  rw [nextBase_eq] at hfinite hsign hscaled hlt
  rw [xshRr_lcgState_toNat] at hscaled
  have hval := f64Val_of_positive (nextBase s) hsign
  refine ⟨_, _, exec_nextflt0 s, rfl, rfl, oneDraw_respond_nextU32 _ s, onlyStateMoves_respond_nextU32 _ s, hfinite, ?_, ?_,
    ?_, nextBase_of_atS42 s⟩
  · rw [hval]
    exact natCast_mul_two_pow _ _ 32 1074 hscaled
  · omega
  · rw [hval]
    exact natCast_lt_two_pow _ 1074 hlt

/-! ### `NEXTFLT1` -/

/-- Checks that all report one fault report it when one of them holds. -/
theorem firstFault_of_uniform (checks : List (Bool × Status)) (f : Status) (hall : ∀ c ∈ checks, c.2 = f)
    (hholds : ∃ c ∈ checks, c.1 = true) : firstFault checks = some f := by
  obtain ⟨c, hc, hholds⟩ := hholds
  cases h : firstFault checks with
  | none => simp [(firstFault_eq_none checks).1 h c hc] at hholds
  | some g =>
    obtain ⟨before, after, rfl, -⟩ := firstFault_eq_some checks g h
    exact congrArg some (hall (true, g) (by simp))

theorem exec_nextflt1_of_bad (bound : Word) (s : State) (h : f64Finite bound = false ∨ f64IsZero bound = true) :
    exec (.nextflt1 bound) s = .next (raiseFault .invalidRange s) :=
  congrArg _ (runCommand_of_some _ _ s .invalidRange
    (firstFault_of_uniform _ _ (by simp [floatBoundChecks]) (by simpa [floatBoundChecks] using h)))

theorem exec_nextflt1_of_good (bound : Word) (s : State) (hfinite : f64Finite bound = true) (hzero : f64IsZero bound = false) :
    exec (.nextflt1 bound) s = .next (respond (fmul (nextBase s) bound) (nextU32 s).2) := by
  rw [← nextBase_eq]
  exact congrArg _ (runCommand_of_none _ _ s (by simp [floatBoundChecks, firstFault, hfinite, hzero]))

/-- The answer to a worked example of R161 is the product with the base they all draw. -/
theorem answers_nextflt1_of_atS42 (bound v : Word) (s : State) (h : AtS42 s) (hfinite : f64Finite bound = true)
    (hzero : f64IsZero bound = false) (hv : fmul 0x3FE85EAF7AC00000#64 bound = v) : Answers (.nextflt1 bound) s v := by
  rw [← hv, ← nextBase_of_atS42 s h]
  exact ⟨_, exec_nextflt1_of_good bound s hfinite hzero, rfl⟩

/-- Settles O29: the value has the bound's sign and, since the base is below 1, no larger magnitude. -/
theorem nextFlt1ScalesTheBase : Obligations.NextFlt1ScalesTheBase := by
  refine ⟨fun a b => decode_mkPacket _ a b, fun bound s h => ?_, fun bound s hfinite hzero => ?_, fun s h => ?_⟩
  · exact ⟨_, exec_nextflt1_of_bad bound s h, rfl, nothingMoves_setResponse s _⟩
  · obtain ⟨hpositive, hnegative⟩ := fmul_u32ToUnit_between (xshRr s.lcgState) bound hfinite
    have hvfinite := (fmul_u32ToUnit_le (xshRr s.lcgState) bound hfinite).1
    have hlt := fmul_u32ToUnit_lt (xshRr s.lcgState) bound hfinite
    have hzero_output := fmul_u32ToUnit_of_zero (xshRr s.lcgState) bound hfinite
    rw [nextBase_eq] at hpositive hnegative hvfinite hlt hzero_output
    rw [xshRr_lcgState_toNat] at hzero_output
    exact ⟨_, _, exec_nextflt1_of_good bound s hfinite hzero, rfl, rfl, oneDraw_respond_nextU32 _ s,
      onlyStateMoves_respond_nextU32 _ s, hvfinite, hlt, hpositive,
      fun hneg => ⟨(hnegative hneg).1, (hnegative hneg).2, fun h0 => hzero_output h0 hneg⟩⟩
  · refine ⟨?_, ?_, ?_, ?_, ?_, ?_⟩ <;>
      exact answers_nextflt1_of_atS42 _ _ s h (by decide) (by decide) (by decide +kernel)

/-! ### `NEXTFLT2` -/

theorem exec_nextflt2_of_bad (min max : Word) (s : State)
    (h : f64Finite min = false ∨ f64Finite max = false ∨ ¬ f64Val min < f64Val max ∨ f64Finite (fsub max min) = false) :
    exec (.nextflt2 min max) s = .next (raiseFault .invalidRange s) :=
  congrArg _ (runCommand_of_some _ _ s .invalidRange
    (firstFault_of_uniform _ _ (by simp [floatRangeChecks]) (by simpa [floatRangeChecks, flt, or_assoc] using h)))

theorem exec_nextflt2_of_good (min max : Word) (s : State) (hmin : f64Finite min = true) (hmax : f64Finite max = true)
    (hlt : f64Val min < f64Val max) (hdiff : f64Finite (fsub max min) = true) :
    exec (.nextflt2 min max) s = .next (respond (fadd (fmul (nextBase s) (fsub max min)) min) (nextU32 s).2) := by
  rw [← nextBase_eq]
  exact congrArg _ (runCommand_of_none _ _ s (by simp [floatRangeChecks, firstFault, flt, hmin, hmax, hlt, hdiff]))

/-- The answer to a worked example of R162 scales and shifts the base they all draw. -/
theorem answers_nextflt2_of_atS42 (min max v : Word) (s : State) (h : AtS42 s) (hmin : f64Finite min = true)
    (hmax : f64Finite max = true) (hlt : f64Val min < f64Val max) (hdiff : f64Finite (fsub max min) = true)
    (hv : fadd (fmul 0x3FE85EAF7AC00000#64 (fsub max min)) min = v) : Answers (.nextflt2 min max) s v := by
  rw [← hv, ← nextBase_of_atS42 s h]
  exact ⟨_, exec_nextflt2_of_good min max s hmin hmax hlt hdiff, rfl⟩

theorem faultsWith_nextflt2 (min max : Word) (s : State)
    (h : f64Finite min = false ∨ f64Finite max = false ∨ ¬ f64Val min < f64Val max ∨ f64Finite (fsub max min) = false) :
    FaultsWith (.nextflt2 min max) s .invalidRange :=
  ⟨_, exec_nextflt2_of_bad min max s h, rfl, nothingMoves_setResponse s _⟩

/-- The difference of a range is `RN` of the exact one, which is positive (R162). -/
theorem fsub_of_lt (min max : Word) (hmin : f64Finite min = true) (hmax : f64Finite max = true)
    (hlt : f64Val min < f64Val max) : fsub max min = roundNearest false (f64Val max - f64Val min).toNat 1 := by
  have hval := f64Val_flipSign min
  rw [fsub, fadd_of_pos_sum max _ hmax (by rwa [f64Finite_flipSign]) (by omega), hval, Int.sub_eq_add_neg]

/-- A difference that is not zero is at least one unit, which is the magnitude of a datum (R162). -/
theorem f64Val_fsub_pos (min max : Word) (hmin : f64Finite min = true) (hmax : f64Finite max = true)
    (hlt : f64Val min < f64Val max) (hdiff : f64Finite (fsub max min) = true) : 0 < f64Val (fsub max min) := by
  rw [fsub_of_lt min max hmin hmax hlt] at hdiff ⊢
  have hunit : f64Mag 1#64 = 1 := by decide
  have hone := datum_le_f64Mag_roundNearest false _ 1 1#64 Nat.one_pos (by decide) (by omega) hdiff
  rw [f64Val_of_positive _ (f64Sign_roundNearest false _ 1)]
  omega

/-- The base scaled by the difference of a range stays between 0 and the exact difference. -/
theorem fmul_u32ToUnit_fsub (u : Word32) (min max : Word) (hmin : f64Finite min = true) (hmax : f64Finite max = true)
    (hlt : f64Val min < f64Val max) (hdiff : f64Finite (fsub max min) = true) :
    f64Finite (fmul (u32ToUnit u) (fsub max min)) = true ∧ 0 ≤ f64Val (fmul (u32ToUnit u) (fsub max min)) ∧
      f64Val (fmul (u32ToUnit u) (fsub max min)) ≤ f64Val max - f64Val min := by
  rw [fsub_of_lt min max hmin hmax hlt] at hdiff ⊢
  have hsign := (f64Sign_fmul_u32ToUnit u _ hdiff).trans (f64Sign_roundNearest false _ 1)
  have hle := fmul_u32ToUnit_roundNearest_le u _ hdiff
  rw [f64Val_of_positive _ hsign]
  exact ⟨(fmul_u32ToUnit_le u _ hdiff).1, by omega, by omega⟩

/-- Settles O30: the exact sum lies between `min` and `max`, which are data, so its rounding does too. -/
theorem nextFlt2ScalesAndShiftsTheBase : Obligations.NextFlt2ScalesAndShiftsTheBase := by
  refine ⟨fun a b => decode_mkPacket _ a b, faultsWith_nextflt2, fun min max s hmin hmax hlt hdiff => ?_, fun s h => ?_⟩
  · obtain ⟨hfinite, hge, hle⟩ := fmul_u32ToUnit_fsub (xshRr s.lcgState) min max hmin hmax hlt hdiff
    rw [nextBase_eq] at hfinite hge hle
    obtain ⟨hvfinite, hvge, -⟩ := fadd_between _ min min max hfinite hmin hmin hmax (by omega) (by omega)
    exact ⟨f64Val_fsub_pos min max hmin hmax hlt hdiff, _, _, exec_nextflt2_of_good min max s hmin hmax hlt hdiff, rfl, rfl,
      oneDraw_respond_nextU32 _ s, onlyStateMoves_respond_nextU32 _ s, hvfinite, hvge⟩
  · refine ⟨?_, ?_, ?_, ?_, ?_, faultsWith_nextflt2 _ _ s (.inr (.inr (.inl (by decide +kernel)))),
      faultsWith_nextflt2 _ _ s (.inr (.inr (.inr (by decide +kernel))))⟩ <;>
      exact answers_nextflt2_of_atS42 _ _ _ s h (by decide) (by decide) (by decide +kernel) (by decide +kernel)
        (by decide +kernel)

end Sys2Proof.Machine
end

section
/-! PROOFS of the family 45_array_shuffle: the draws of a permutation one at a time, as an induction principle, and what follows
from it; the in-place form; and the buffer that holds a permutation after a command. -/

namespace Sys2Proof.Machine

/-! ### One draw of a permutation -/

/-- The remainder reduction is of the formula's output (R191; 43_uniform_sampler.md R140). -/
theorem nextIntBound_eq (m : Nat) (s : State) : nextIntBound m s = (nextOutput s % m, (nextU32 s).2) :=
  congrArg (fun u => (u % m, (nextU32 s).2)) (xshRr_lcgState_toNat s)

theorem oneDraw_nextU32 (s : State) : OneDraw s (nextU32 s).2 := lcg_toNat s.lcgState s.mult s.incr

/-- The draws to make on a list, and on the words left after one of them. -/
theorem drawsLeft_eraseIdx (l : List Word) (j : Nat) (h : 2 ≤ l.length) (hj : j < l.length) :
    l.length - 1 = (l.eraseIdx j).length - 1 + 1 := by
  rw [List.length_eraseIdx_of_lt hj]; omega

/-- One pass of the loop of `Permute` (R191). -/
theorem permute_of_two_le (l : List Word) (s : State) (h : 2 ≤ l.length) :
    permute l s =
      (l.getD (nextOutput s % l.length) 0 :: (permute (l.eraseIdx (nextOutput s % l.length)) (nextU32 s).2).1,
        (permute (l.eraseIdx (nextOutput s % l.length)) (nextU32 s).2).2) := by
  have hlt : nextOutput s % l.length < l.length := Nat.mod_lt _ (by omega)
  rw [permute, drawsLeft_eraseIdx l _ h hlt, permuteLoop, nextIntBound_eq, permute]

/-- What holds of a list of at most one word, and of a longer list when it holds of the words left after a draw in the state
after it, holds of every list that is permuted. -/
theorem permute_induction {motive : List Word → State → Prop} (short : ∀ l s, l.length - 1 = 0 → motive l s)
    (draw : ∀ l s, 2 ≤ l.length → nextOutput s % l.length < l.length →
      motive (l.eraseIdx (nextOutput s % l.length)) (nextU32 s).2 → motive l s) (l : List Word) (s : State) :
    motive l s := by
  obtain ⟨k, hk⟩ : ∃ k, l.length - 1 = k := ⟨_, rfl⟩
  induction k generalizing l s with
  | zero => exact short l s hk
  | succ k ih =>
    have hlt : nextOutput s % l.length < l.length := Nat.mod_lt _ (by omega)
    have hcount := drawsLeft_eraseIdx l _ (by omega) hlt
    exact draw l s (by omega) hlt (ih _ _ (by omega))

/-- Settles O31: the equation of one pass, in which the words left are those before and after the drawn position. -/
theorem permuteTakesTheDrawnWordFirst : Obligations.PermuteTakesTheDrawnWordFirst := by
  refine ⟨fun l s h => permute_of_length_le_one l s (by omega), fun l s h => ?_⟩
  have hlt : nextOutput s % l.length < l.length := Nat.mod_lt _ (by omega)
  refine ⟨(nextU32 s).2, l.getD (nextOutput s % l.length) 0, oneDraw_nextU32 s, nextU32_state s, ?_, ?_⟩
  · rw [List.getElem?_eq_getElem hlt, List.getD_eq_getElem l 0 hlt]
  · rw [permute_of_two_le l s h, List.eraseIdx_eq_take_drop_succ]

/-- Settles O32: a draw moves one word to the front. -/
theorem permuteRearrangesItsInput : Obligations.PermuteRearrangesItsInput := by
  refine permute_induction (fun l s h => ?_) (fun l s h hlt ih => ?_)
  · rw [permute_of_length_le_one l s h]
  · rw [permute_of_two_le l s h, List.getD_eq_getElem l 0 hlt]
    exact (ih.cons _).trans (List.getElem_cons_eraseIdx_perm hlt)

/-! ### The draws of a permutation -/

/-- The draws depend on the multiplier and the increment alone (40_lcg_state_advance.md R107). -/
theorem afterDraws_congr (s t : State) (hmult : t.mult = s.mult) (hincr : t.incr = s.incr) (k x : Nat) :
    afterDraws t k x = afterDraws s k x := by
  induction k generalizing x with
  | zero => rfl
  | succ k ih => rw [afterDraws, afterDraws, ih, successorFormula, successorFormula, hmult, hincr]

theorem permute_lcgState_toNat (l : List Word) (s : State) :
    (permute l s).2.lcgState.toNat = afterDraws s (l.length - 1) s.lcgState.toNat := by
  induction l, s using permute_induction with
  | short l s h => rw [permute_of_length_le_one l s h, h, afterDraws]
  | draw l s h hlt ih =>
    have hdraw : (nextU32 s).2.lcgState.toNat = successorFormula s s.lcgState.toNat := oneDraw_nextU32 s
    rw [permute_of_two_le l s h, ih, drawsLeft_eraseIdx l _ h hlt, hdraw]
    exact afterDraws_congr s (nextU32 s).2 rfl rfl _ _

/-- Settles O33: the loop moves `STATE` alone, and each pass of it is one draw. -/
theorem permuteMakesOneDrawLessThanWords : Obligations.PermuteMakesOneDrawLessThanWords := fun l s =>
  ⟨permuteLoop_state _ l s, permute_lcgState_toNat l s⟩

/-! ### The in-place form -/

/-- The shift of one step, and the drawn word `e` put at the place that it frees: `e` comes before the words that stood before
it (R194). -/
theorem shiftUp_set (out before after : List Word) (e v : Word) :
    (shiftUp out.length before.length (out ++ (before ++ e :: after))).set out.length v =
      out ++ v :: (before ++ after) := by
  induction before using List.reverseRecOn generalizing e after with
  | nil => simp [shiftUp]
  | append_singleton ys y ih =>
    have hshift : (out ++ (ys ++ [y] ++ e :: after)).set (out.length + ys.length + 1)
        ((out ++ (ys ++ [y] ++ e :: after)).getD (out.length + ys.length) 0) =
          out ++ (ys ++ y :: (y :: after)) := by
      simp [List.getD_eq_getElem?_getD, Nat.add_assoc]
    rw [List.length_append, List.length_singleton, shiftUp, hshift, ih]
    simp

/-- One step on the list in place, which holds the words drawn before it and then the working list (R194). -/
theorem shiftUp_set_of_lt (out work : List Word) (j : Nat) (h : j < work.length) :
    (shiftUp out.length j (out ++ work)).set out.length ((out ++ work).getD (out.length + j) 0) =
      out ++ work.getD j 0 :: work.eraseIdx j := by
  have hwork : work = work.take j ++ work[j] :: work.drop (j + 1) := by simp
  have hshift := shiftUp_set out (work.take j) (work.drop (j + 1)) work[j] (work.getD j 0)
  rw [← hwork, List.length_take_of_le h.le, ← List.eraseIdx_eq_take_drop_succ] at hshift
  rw [List.getD_append_right _ _ _ _ (Nat.le_add_right _ _), Nat.add_sub_cancel_left, hshift]

/-- The in-place loop from the step at which the words `out` are drawn and `work` is left. -/
theorem inPlaceLoop_append (work : List Word) (s : State) (out : List Word) :
    inPlaceLoop (work.length - 1) out.length (out ++ work) s = (out ++ (permute work s).1, (permute work s).2) := by
  induction work, s using permute_induction generalizing out with
  | short work s h => rw [permute_of_length_le_one work s h, h, inPlaceLoop]
  | draw work s h hlt ih =>
    have hleft : (out ++ work).length - out.length = work.length := by simp
    have hnext := ih (out ++ [work.getD (nextOutput s % work.length) 0])
    rw [List.length_append, List.length_singleton, List.append_assoc, List.append_assoc, List.singleton_append,
      List.singleton_append] at hnext
    rw [drawsLeft_eraseIdx work _ h hlt, inPlaceLoop, hleft, nextIntBound_eq,
      shiftUp_set_of_lt out work _ hlt, hnext, permute_of_two_le work s h]

/-- Settles O34: the in-place loop from its first step, with no word drawn. -/
theorem inPlacePermutationAgrees : Obligations.InPlacePermutationAgrees := fun l s => inPlaceLoop_append l s []

/-! ### The permutations of the worked examples -/

/-- A permutation sees of the state the three registers of the generator alone. -/
theorem permute_congr (l : List Word) (s t : State) (hstate : t.lcgState = s.lcgState) (hmult : t.mult = s.mult)
    (hincr : t.incr = s.incr) :
    (permute l t).1 = (permute l s).1 ∧ (permute l t).2.lcgState = (permute l s).2.lcgState := by
  induction l, s using permute_induction generalizing t with
  | short l s h =>
    rw [permute_of_length_le_one l s h, permute_of_length_le_one l t h]
    exact ⟨rfl, hstate⟩
  | draw l s h hlt ih =>
    have houtput : nextOutput t = nextOutput s := congrArg (fun x : Word => outputFormula x.toNat) hstate
    obtain ⟨hwords, hafter⟩ := ih (nextU32 t).2 (by simp only [nextU32_lcgState, hstate, hmult, hincr]) hmult hincr
    rw [permute_of_two_le l s h, permute_of_two_le l t h, houtput, hwords, hafter]
    exact ⟨rfl, rfl⟩

/-- A state that the worked examples start from. -/
def exampleState : State :=
  State.resetWith ⟨0x5851F42D4C957F2D#64, 0x14057B7EF767814F#64, 0x977AFD8015414A94#64, 8⟩ 0

theorem permute_of_atS42 (l : List Word) (s : State) (h : AtS42 s) :
    (permute l s).1 = (permute l exampleState).1 ∧ (permute l s).2.lcgState = (permute l exampleState).2.lcgState := by
  obtain ⟨hstate, hmult, hincr⟩ := h
  exact permute_congr l exampleState s hstate hmult hincr

/-! ### A buffer that holds a permutation -/

/-- `t` reads as `s` after the permutation of `l` has been drawn and written to the buffer from index 0. -/
structure HoldsPermutation (sp : Space) (l : List Word) (s t : State) : Prop where
  memRead_of_lt : ∀ i, i < l.length → some (memRead sp i t) = (permute l s).1[i]?
  memRead_of_ge : ∀ i, l.length ≤ i → memRead sp i t = memRead sp i s
  lcgState : t.lcgState = (permute l s).2.lcgState

theorem holdsPermutation_memWriteList (sp : Space) (l : List Word) (s : State) :
    HoldsPermutation sp l s (memWriteList sp (permute l s).1 (permute l s).2) where
  memRead_of_lt i hi := by
    rw [← permute_length l s] at hi
    rw [memRead_permuted, if_pos rfl, List.getElem?_eq_getElem hi, Option.getD_some]
  memRead_of_ge i hi := by
    rw [← permute_length l s] at hi
    rw [memRead_permuted, if_pos rfl, List.getElem?_eq_none hi, Option.getD_none]
  lcgState := by rw [memWriteList_eq]

theorem HoldsPermutation.lcgState_toNat {sp : Space} {l : List Word} {s t : State} (h : HoldsPermutation sp l s t) :
    t.lcgState.toNat = afterDraws s (l.length - 1) s.lcgState.toNat :=
  h.lcgState ▸ permute_lcgState_toNat l s

/-- The words of the buffer, read in order, are the permutation. -/
theorem HoldsPermutation.memReadList_eq {sp : Space} {l : List Word} {s t : State} (h : HoldsPermutation sp l s t) :
    memReadList sp l.length t = (permute l s).1 := by
  refine List.ext_getElem? fun i => ?_
  by_cases hi : i < l.length
  · rw [← h.memRead_of_lt i hi, memReadList, List.getElem?_map, List.getElem?_range hi, Option.map_some]
  · rw [List.getElem?_eq_none (by simpa using hi), List.getElem?_eq_none (by simpa [permute_length] using hi)]

/-- The buffer and `STATE` after a permutation of a worked example: `out` and `x` are what the concrete state gives. -/
theorem HoldsPermutation.of_atS42 {sp : Space} {l : List Word} {s t : State} (h : HoldsPermutation sp l s t) (hs : AtS42 s)
    (out : List Word) (x : Word) (hout : (permute l exampleState).1 = out)
    (hx : (permute l exampleState).2.lcgState = x) : memReadList sp l.length t = out ∧ t.lcgState = x := by
  obtain ⟨hwords, hstate⟩ := permute_of_atS42 l s hs
  exact ⟨h.memReadList_eq.trans (hwords.trans hout), h.lcgState.trans (hstate.trans hx)⟩

theorem elementList_length (s : State) : (elementList s).length = s.len.toNat := memReadList_length .ebuf s.len.toNat s

theorem zext_eq_ofNat (v : Word32) : zext v = BitVec.ofNat 64 v.toNat := (BitVec.ofNat_toNat 64 v).symm

/-! ### `PERM` -/

theorem exec_perm (s : State) :
    ∃ t, exec .perm s = .next t ∧ RespondsOk (BitVec.ofNat 64 s.len.toNat) t ∧ t.olen = s.len ∧
      HoldsPermutation .obuf (elementList s) s t :=
  ⟨_, rfl, zext_eq_ofNat s.len ▸ rfl, rfl, { holdsPermutation_memWriteList .obuf (elementList s) s with }⟩

/-- Settles O35: what `OBUF` holds is `exec_perm`, and the rest is what `Moves` leaves unchanged. -/
theorem permFillsTheOutputBuffer : Obligations.PermFillsTheOutputBuffer := by
  refine ⟨fun a b => decode_mkPacket _ a b, fun s => ?_⟩
  obtain ⟨t, ht, hresponds, holen, hholds⟩ := exec_perm s
  have hmoves := moves_of_exec .perm s t ht
  have hlength := elementList_length s
  refine ⟨t, ht, hresponds, hlength ▸ hholds.memRead_of_lt, hlength ▸ hholds.memRead_of_ge,
    hlength ▸ hholds.lcgState_toNat, holen, hmoves.len_eq nofun, hmoves.wlen_eq nofun,
    fun k => hmoves.memRead_eq .ebuf k (by simp [writesWord, writesEbufWord]),
    fun k => hmoves.memRead_eq .wbuf k nofun, hmoves.sameInstance, fun hs hl => ?_⟩
  rw [hl] at hholds
  exact hholds.of_atS42 hs _ _ (by decide +kernel) (by decide +kernel)

/-! ### `PERMN` -/

theorem exec_permn_of_gt (n : Word) (s : State) (h : s.nMax.toNat < n.toNat) :
    exec (.permn n) s = .next (raiseFault .badIndex s) :=
  congrArg Host.Outcome.next (runCommand_of_some _ _ s _ (by simp [firstFault, badLength, uval, h]))

theorem exec_permn_of_le (n : Word) (s : State) (h : n.toNat ≤ s.nMax.toNat) :
    ∃ t, exec (.permn n) s = .next t ∧ RespondsOk n t ∧ t.olen = lengthOf n ∧
      HoldsPermutation .obuf (indexWords n.toNat) s t :=
  ⟨_, congrArg Host.Outcome.next (runCommand_of_none _ _ s (by simp [firstFault, badLength, uval, Nat.not_lt.2 h])), rfl, rfl,
    { holdsPermutation_memWriteList .obuf (indexWords n.toNat) s with }⟩

theorem indexWords_length (n : Nat) : (indexWords n).length = n := by simp [indexWords]

theorem lengthOf_toNat (n : Word) (s : State) (h : n.toNat ≤ s.nMax.toNat) : (lengthOf n).toNat = n.toNat := by
  simpa using lengthOf_ofNat_toNat n.toNat s h

/-- Settles O36: above the capacity the command's one check holds; otherwise what `OBUF` holds is `exec_permn_of_le`, and the
rest is what `Moves` leaves unchanged. -/
theorem permNFillsTheOutputBuffer : Obligations.PermNFillsTheOutputBuffer := by
  refine ⟨fun a b => decode_mkPacket _ a b,
    fun n s h => ⟨_, exec_permn_of_gt n s h, rfl, nothingMoves_setResponse s _⟩, fun n s h => ?_⟩
  obtain ⟨t, ht, hresponds, holen, hholds⟩ := exec_permn_of_le n s h
  have hmoves := moves_of_exec (.permn n) s t ht
  have hlength := indexWords_length n.toNat
  refine ⟨t, ht, hresponds, fun i hi => hholds.memRead_of_lt i (by rwa [hlength]),
    fun i hi => hholds.memRead_of_ge i (by rwa [hlength]), hlength ▸ hholds.lcgState_toNat,
    holen ▸ lengthOf_toNat n s h, hmoves.len_eq nofun, hmoves.wlen_eq nofun,
    fun k => hmoves.memRead_eq .ebuf k (by simp [writesWord, writesEbufWord]),
    fun k => hmoves.memRead_eq .wbuf k nofun, hmoves.sameInstance, fun hs hn => ?_⟩
  subst hn
  exact hholds.of_atS42 hs _ _ (by decide +kernel) (by decide +kernel)

/-! ### `SHUF` -/

theorem exec_shuf (s : State) :
    ∃ t, exec .shuf s = .next t ∧ RespondsOk (BitVec.ofNat 64 s.len.toNat) t ∧
      HoldsPermutation .ebuf (elementList s) s t :=
  ⟨_, rfl, zext_eq_ofNat s.len ▸ rfl, { holdsPermutation_memWriteList .ebuf (elementList s) s with }⟩

theorem elementList_getElem? (s : State) (i : Nat) (h : i < s.len.toNat) :
    (elementList s)[i]? = some (memRead .ebuf i s) := by
  rw [elementList, List.getElem?_map, List.getElem?_range h, Option.map_some]

/-- With at most one element `SHUF` writes back what `EBUF` held, without a draw (R197). -/
theorem HoldsPermutation.nothing_moves {s t : State} (h : HoldsPermutation .ebuf (elementList s) s t)
    (hlen : s.len.toNat ≤ 1) : SameBuffer .ebuf s t ∧ t.lcgState = s.lcgState := by
  have hlength := elementList_length s
  have hpermute := permute_of_length_le_one (elementList s) s (by omega)
  refine ⟨fun i => ?_, by rw [h.lcgState, hpermute]⟩
  by_cases hi : i < s.len.toNat
  · have hword := h.memRead_of_lt i (by omega)
    rw [hpermute, elementList_getElem? s i hi] at hword
    exact Option.some.inj hword
  · exact h.memRead_of_ge i (by omega)

/-- Two buffers that hold the permutation of the same words agree on it. -/
theorem HoldsPermutation.agree {sp sp' : Space} {l : List Word} {s t t' : State} (h : HoldsPermutation sp l s t)
    (h' : HoldsPermutation sp' l s t') :
    t'.lcgState = t.lcgState ∧ ∀ i, i < l.length → memRead sp' i t' = memRead sp i t :=
  ⟨h'.lcgState.trans h.lcgState.symm,
    fun i hi => Option.some.inj ((h'.memRead_of_lt i hi).trans (h.memRead_of_lt i hi).symm)⟩

/-- Settles O37: `EBUF` after `SHUF` and `OBUF` after `PERM` hold the permutation of the same words, and the rest is what
`Moves` leaves unchanged. -/
theorem shufPermutesInPlace : Obligations.ShufPermutesInPlace := by
  refine ⟨fun a b => decode_mkPacket _ a b, fun s => ?_⟩
  obtain ⟨t, ht, hresponds, hholds⟩ := exec_shuf s
  have hmoves := moves_of_exec .shuf s t ht
  have hlength := elementList_length s
  have hlen : t.len = s.len := hmoves.len_eq nofun
  have hobuf : ¬ writesObuf .shuf := by simp [writesObuf]
  refine ⟨t, ht, hresponds, hlength ▸ hholds.memRead_of_lt, hlength ▸ hholds.memRead_of_ge,
    hlength ▸ hholds.lcgState_toNat, ⟨hlen, hmoves.wlen_eq nofun, hmoves.olen_eq hobuf⟩,
    fun k => hmoves.memRead_eq .wbuf k nofun, fun k => hmoves.memRead_eq .obuf k hobuf, hmoves.sameInstance,
    hholds.nothing_moves, fun t' ht' => ?_, fun hs hl => ?_⟩
  · obtain ⟨u, hu, -, -, hperm⟩ := exec_perm s
    cases ht'.symm.trans hu
    exact hlength ▸ hholds.agree hperm
  · have hlist : elementList t = memReadList .ebuf (elementList s).length t := by rw [hlength, ← hlen]; rfl
    rw [hlist]
    rw [hl] at hholds ⊢
    exact hholds.of_atS42 hs _ _ (by decide +kernel) (by decide +kernel)

end Sys2Proof.Machine
end

section
/-! PROOFS of the family 46_weighted_choice: a sum taken on from any start, and what a finite or non-negative one says of its
parts; the scan as a search of the partial sums; the checks of a weighted choice, and its two commands; and the scan of
non-negative weights. -/

namespace Sys2Proof.Machine

/-! ### The total -/

theorem f64_classes (w : Word) : f64Finite w = true ∨ f64IsInf w = true ∨ f64IsNaN w = true := by
  rw [f64Finite_iff_not_special]
  cases f64IsNaN w <;> cases f64IsInf w <;> simp

theorem not_finite_of_inf {w : Word} (h : f64IsInf w = true) : f64Finite w ≠ true := fun hfinite =>
  absurd h (by simp [f64IsInf_of_finite hfinite])

/-- An operand that is an infinity or a NaN makes the sum one (R152). -/
theorem finite_of_finite_fadd (x y : Word) (h : f64Finite (fadd x y) = true) :
    f64Finite x = true ∧ f64Finite y = true := by
  have hnan : ¬ (f64IsNaN x = true ∨ f64IsNaN y = true) := fun hxy => by
    rw [fadd_of_nan x y hxy] at h
    exact absurd h (by decide)
  obtain hx | hx | hx := f64_classes x
  · obtain hy | hy | hy := f64_classes y
    · exact ⟨hx, hy⟩
    · rw [(fadd_of_inf_of_finite y x hy hx).2] at h
      exact absurd h (not_finite_of_inf hy)
    · exact absurd (.inr hy) hnan
  · obtain hy | hy | hy := f64_classes y
    · rw [(fadd_of_inf_of_finite x y hx hy).1] at h
      exact absurd h (not_finite_of_inf hx)
    · rw [fadd_of_inf_of_inf x y hx hy] at h
      split at h
      · exact absurd h (not_finite_of_inf hx)
      · exact absurd h (by decide)
    · exact absurd (.inr hy) hnan
  · exact absurd (.inl hx) hnan

/-- A sum taken on from `c` is finite only when `c` and every weight added is (R222). -/
theorem finite_of_finite_foldl_fadd (ws : List Word) (c : Word) (h : f64Finite (ws.foldl fadd c) = true) :
    f64Finite c = true ∧ ∀ w ∈ ws, f64Finite w = true := by
  induction ws generalizing c with
  | nil => exact ⟨h, by simp⟩
  | cons w ws ih =>
    obtain ⟨hsum, hws⟩ := ih (fadd c w) h
    obtain ⟨hc, hw⟩ := finite_of_finite_fadd c w hsum
    exact ⟨hc, List.forall_mem_cons.2 ⟨hw, hws⟩⟩

/-- The total is the sum taken on from any of its partial sums. -/
theorem total_eq_foldl_drop (ws : List Word) (k : Nat) : total ws = (ws.drop k).foldl fadd (total (ws.take k)) := by
  rw [total, total, ← List.foldl_append, List.take_append_drop]

theorem finite_total_take (ws : List Word) (k : Nat) (h : f64Finite (total ws) = true) :
    f64Finite (total (ws.take k)) = true :=
  (finite_of_finite_foldl_fadd _ _ (total_eq_foldl_drop ws k ▸ h)).1

/-- Settles O38: the sum is a left fold, and a fold that ends finite was finite on the way. -/
theorem totalAddsInOrderAndKeepsNonFinite : Obligations.TotalAddsInOrderAndKeepsNonFinite := by
  refine ⟨rfl, fun ws w => List.foldl_append .., fun ws => ⟨fun h => ?_, fun h => ?_⟩⟩
  · exact ⟨(finite_of_finite_foldl_fadd ws 0 h).2, fun k _ => finite_total_take ws k h⟩
  · simpa using h.2 ws.length le_rfl

/-! ### The scan -/

/-- The partial sums of the weights, taken on from `c`: one after each weight. -/
def partialSums (c : Word) (ws : List Word) : List Word := (ws.scanl fadd c).tail

theorem partialSums_cons (c w : Word) (ws : List Word) :
    partialSums c (w :: ws) = fadd c w :: partialSums (fadd c w) ws := by
  cases ws <;> simp [partialSums, List.scanl_cons, List.scanl_nil]

@[simp] theorem partialSums_length (c : Word) (ws : List Word) : (partialSums c ws).length = ws.length := by
  simp [partialSums]

theorem partialSums_getElem (c : Word) (ws : List Word) (k : Nat) (h : k < (partialSums c ws).length) :
    (partialSums c ws)[k] = (ws.take (k + 1)).foldl fadd c := by
  simp only [partialSums, List.getElem_tail, List.getElem_scanl]

/-- The scan searches the partial sums and counts from the position it starts at. -/
theorem scanFrom_eq_findIdx? (r c : Word) (i : Nat) (ws : List Word) :
    scanFrom r c i ws = ((partialSums c ws).findIdx? fun sum => fgt sum r).map (· + i) := by
  induction ws generalizing c i with
  | nil => rfl
  | cons w ws ih =>
    rw [scanFrom, ih, partialSums_cons, List.findIdx?_cons]
    split
    · simp
    · simp [Function.comp_def, Nat.add_comm, Nat.add_left_comm]

theorem scanFrom_eq_some (ws : List Word) (r : Word) (i : Nat) :
    scanFrom r 0 0 ws = some i ↔
      i < ws.length ∧ fgt (total (ws.take (i + 1))) r = true ∧ ∀ j, j < i → fgt (total (ws.take (j + 1))) r = false := by
  simp [scanFrom_eq_findIdx?, List.findIdx?_eq_some_iff_getElem, partialSums_getElem, total, and_left_comm]

theorem scanFrom_eq_none (ws : List Word) (r : Word) :
    scanFrom r 0 0 ws = none ↔ ∀ j, j < ws.length → fgt (total (ws.take (j + 1))) r = false := by
  simp [scanFrom_eq_findIdx?, List.findIdx?_eq_none_iff, List.forall_mem_iff_getElem, partialSums_getElem, total]

theorem isChoice_cumScan (ws : List Word) (r : Word) (h : ws ≠ []) : IsChoice ws r (cumScan r ws) := by
  have hpos := List.length_pos_iff.2 h
  rw [cumScan]
  cases hscan : scanFrom r 0 0 ws with
  | none =>
    have hnone := (scanFrom_eq_none ws r).1 hscan
    exact ⟨Nat.sub_one_lt_of_lt hpos, fun j hj => hnone j (Nat.lt_of_lt_of_le hj (Nat.sub_le _ 1)), .inr rfl⟩
  | some i =>
    obtain ⟨hlt, hexceeds, hbefore⟩ := (scanFrom_eq_some ws r i).1 hscan
    exact ⟨hlt, hbefore, .inl hexceeds⟩

/-- A choice is not before another: its sum would exceed `r`, or it would be the last position. -/
theorem IsChoice.le {ws : List Word} {r : Word} {i i' : Nat} (h : IsChoice ws r i) (h' : IsChoice ws r i') : i' ≤ i := by
  by_contra! hlt
  obtain hexceeds | hlast := h.exceedsOrLast
  · rw [h'.noneBefore i hlt] at hexceeds
    cases hexceeds
  · have := h'.inRange
    omega

/-- Settles O39: the scan makes the choice, and there is only one. -/
theorem scanReturnsTheFirstExceedingSum : Obligations.ScanReturnsTheFirstExceedingSum := fun ws r hws _ =>
  ⟨fun h => h ▸ isChoice_cumScan ws r hws,
    fun h => (h.le (isChoice_cumScan ws r hws)).antisymm ((isChoice_cumScan ws r hws).le h)⟩

/-! ### The checks of a weighted choice -/

theorem weights_eq (s : State) : weights s = weightList s := rfl

theorem weightList_length (s : State) : (weightList s).length = s.wlen.toNat := memReadList_length .wbuf s.wlen.toNat s

theorem weightList_ne_nil (s : State) (h : s.wlen ≠ 0) : weightList s ≠ [] := by
  rw [ne_eq, ← List.length_eq_zero_iff, weightList_length]
  exact fun h0 => h (BitVec.eq_of_toNat_eq h0)

theorem wlen_ne_zero_of_weights (s : State) (h : weightList s ≠ []) : s.wlen ≠ 0 := by
  intro h0
  exact h (List.length_eq_zero_iff.1 (by rw [weightList_length, h0]; rfl))

theorem badTotal_iff (t : Word) : badTotal t ↔ f64Finite t = false ∨ f64IsZero t = true := by
  rw [badTotal, ← Bool.not_eq_true, f64Finite_iff_not_special]
  cases f64IsNaN t <;> cases f64IsInf t <;> simp

/-- The checks on a total turn it away exactly when it is a zero, an infinity or a NaN (60_exceptions.md R263). -/
theorem firstFault_floatBoundChecks (t : Word) :
    firstFault (floatBoundChecks t) = if badTotal t then some .invalidRange else none := by
  simp only [badTotal_iff, floatBoundChecks, firstFault]
  cases f64Finite t <;> simp

/-- The fault that a weighted choice reports: the first of its causes (60_exceptions.md R266). -/
theorem firstFault_choiceChecks (withItems : Bool) (s : State) :
    firstFault (choiceChecks withItems s) =
      if s.wlen = 0 then some .emptyInput
      else if withItems = true ∧ s.len ≠ s.wlen then some .lengthMismatch
      else if badTotal (total (weightList s)) then some .invalidRange else none := by
  rw [← firstFault_floatBoundChecks]
  simp only [choiceChecks, weights_eq, List.cons_append, List.nil_append, firstFault, Bool.and_eq_true, decide_eq_true_eq]

/-- A weighted choice without a fault scans for the value it draws, with one draw (R224). -/
theorem choose_eq (s : State) : choose s = (cumScan (choiceDraw s) (weightList s), (nextU32 s).2) := by
  rw [choiceDraw, ← nextBase_eq]
  rfl

/-- A weighted choice without a fault answers what `value` gives of the position that the scan returns (R224). -/
theorem runCommand_choose (withItems : Bool) (value : State → Nat → Word) (s : State) (h0 : s.wlen ≠ 0)
    (hlen : withItems = true → s.len = s.wlen) (htotal : ¬ badTotal (total (weightList s))) :
    runCommand (choiceChecks withItems s) (fun s => respond (value s (choose s).1) (choose s).2) s =
      respond (value s (cumScan (choiceDraw s) (weightList s))) (nextU32 s).2 := by
  have hmismatch : ¬ (withItems = true ∧ s.len ≠ s.wlen) := fun h => h.2 (hlen h.1)
  rw [runCommand_of_none _ _ s (by rw [firstFault_choiceChecks, if_neg h0, if_neg hmismatch, if_neg htotal]), choose_eq]

theorem faultsWith_of_exec (i : Instr) (s : State) (f : Status) (h : exec i s = .next (raiseFault f s)) : FaultsWith i s f :=
  ⟨_, h, rfl, nothingMoves_setResponse s _⟩

/-- The chosen position is one of the weights', and fits a word. -/
theorem cumScan_lt_wlen (s : State) (h : s.wlen ≠ 0) : cumScan (choiceDraw s) (weightList s) < s.wlen.toNat :=
  weightList_length s ▸ (isChoice_cumScan _ (choiceDraw s) (weightList_ne_nil s h)).inRange

/-- The value that a worked example draws. -/
theorem choiceDraw_of_atS42 (s : State) (h : AtS42 s) :
    choiceDraw s = fmul 0x3FE85EAF7AC00000#64 (total (weightList s)) := by
  rw [choiceDraw, nextBase_of_atS42 s h]

/-! ### `WCHI` -/

theorem faultsWith_wchi (s : State) (f : Status) (h : firstFault (choiceChecks false s) = some f) : FaultsWith .wchi s f :=
  faultsWith_of_exec _ s f (congrArg Host.Outcome.next (runCommand_of_some _ _ s f h))

theorem exec_wchi_of_good (s : State) (h0 : s.wlen ≠ 0) (htotal : ¬ badTotal (total (weightList s))) :
    exec .wchi s = .next (respond (BitVec.ofNat 64 (cumScan (choiceDraw s) (weightList s))) (nextU32 s).2) :=
  congrArg Host.Outcome.next (runCommand_choose false (fun _ i => BitVec.ofNat 64 i) s h0 nofun htotal)

theorem faultsWith_wchi_of_badTotal (s : State) (h0 : s.wlen ≠ 0) (htotal : badTotal (total (weightList s))) :
    FaultsWith .wchi s .invalidRange :=
  faultsWith_wchi s _ (by rw [firstFault_choiceChecks, if_neg h0, if_neg (by simp), if_pos htotal])

/-- The answer to a worked example of R225 scans its weights. -/
theorem answers_wchi_of_atS42 (ws : List Word) (v : Word) (s : State) (h : AtS42 s) (hws : weightList s = ws) (hne : ws ≠ [])
    (htotal : ¬ badTotal (total ws))
    (hv : BitVec.ofNat 64 (cumScan (fmul 0x3FE85EAF7AC00000#64 (total ws)) ws) = v) : Answers .wchi s v := by
  subst hws hv
  rw [← choiceDraw_of_atS42 s h]
  exact ⟨_, exec_wchi_of_good s (wlen_ne_zero_of_weights s hne) htotal, rfl⟩

theorem faultsWith_wchi_of_weights (ws : List Word) (s : State) (hws : weightList s = ws) (hne : ws ≠ [])
    (htotal : badTotal (total ws)) : FaultsWith .wchi s .invalidRange := by
  subst hws
  exact faultsWith_wchi_of_badTotal s (wlen_ne_zero_of_weights s hne) htotal

/-- Settles O40: the checks in their order, and otherwise the choice that the scan makes, which is below 2^32. -/
theorem wchiRespondsTheChosenIndex : Obligations.WchiRespondsTheChosenIndex := by
  refine ⟨fun a b => decode_mkPacket _ a b,
    fun s h0 => faultsWith_wchi s _ (by rw [firstFault_choiceChecks, if_pos h0]), faultsWith_wchi_of_badTotal,
    fun s h0 htotal => ?_, fun s h => ⟨fun hws => ?_, fun hws => ?_, fun hws => ?_, fun hws => ?_, fun hws => ?_⟩⟩
  · refine ⟨_, _, exec_wchi_of_good s h0 htotal, rfl, ?_, oneDraw_respond_nextU32 _ s, onlyStateMoves_respond_nextU32 _ s⟩
    have hlt := (cumScan_lt_wlen s h0).trans s.wlen.isLt
    rw [BitVec.toNat_ofNat, Nat.mod_eq_of_lt (by omega)]
    exact isChoice_cumScan _ _ (weightList_ne_nil s h0)
  · exact answers_wchi_of_atS42 _ _ s h hws nofun (by decide +kernel) (by decide +kernel)
  · exact answers_wchi_of_atS42 _ _ s h hws nofun (by decide +kernel) (by decide +kernel)
  · exact answers_wchi_of_atS42 _ _ s h hws nofun (by decide +kernel) (by decide +kernel)
  · exact faultsWith_wchi_of_weights _ s hws nofun (by decide +kernel)
  · exact faultsWith_wchi_of_weights _ s hws nofun (by decide +kernel)

/-! ### `WCHE` -/

theorem faultsWith_wche (s : State) (f : Status) (h : firstFault (choiceChecks true s) = some f) : FaultsWith .wche s f :=
  faultsWith_of_exec _ s f (congrArg Host.Outcome.next (runCommand_of_some _ _ s f h))

theorem exec_wche_of_good (s : State) (h0 : s.wlen ≠ 0) (hlen : s.len = s.wlen)
    (htotal : ¬ badTotal (total (weightList s))) :
    exec .wche s = .next (respond (memRead .ebuf (cumScan (choiceDraw s) (weightList s)) s) (nextU32 s).2) :=
  congrArg Host.Outcome.next (runCommand_choose true (fun s i => memRead .ebuf i s) s h0 (fun _ => hlen) htotal)

/-- Settles O41: the checks in their order, and otherwise the element at the position that the scan chooses. -/
theorem wcheRespondsTheChosenElement : Obligations.WcheRespondsTheChosenElement := by
  refine ⟨fun a b => decode_mkPacket _ a b,
    fun s h0 => faultsWith_wche s _ (by rw [firstFault_choiceChecks, if_pos h0]),
    fun s h0 hlen => faultsWith_wche s _ (by rw [firstFault_choiceChecks, if_neg h0, if_pos ⟨rfl, hlen⟩]),
    fun s h0 hlen htotal => faultsWith_wche s _
      (by rw [firstFault_choiceChecks, if_neg h0, if_neg (by simp [hlen]), if_pos htotal]),
    fun s h0 hlen htotal => ?_, fun s h hws hes => ?_⟩
  · exact ⟨_, _, exec_wche_of_good s h0 hlen htotal, rfl, isChoice_cumScan _ _ (weightList_ne_nil s h0),
      hlen ▸ cumScan_lt_wlen s h0, oneDraw_respond_nextU32 _ s, onlyStateMoves_respond_nextU32 _ s⟩
  · have h0 := wlen_ne_zero_of_weights s (hws ▸ nofun)
    have hlen : s.len = s.wlen := BitVec.eq_of_toNat_eq (by rw [← elementList_length, ← weightList_length, hes, hws]; rfl)
    have hchosen : cumScan (choiceDraw s) (weightList s) = 2 := by
      rw [choiceDraw_of_atS42 s h, hws]
      decide +kernel
    have hword : memRead .ebuf 2 s = 0xC#64 := by
      have hget := elementList_getElem? s 2 (by rw [← elementList_length, hes]; decide)
      rw [hes] at hget
      exact (Option.some.inj hget).symm
    have hexec := exec_wche_of_good s h0 hlen (by rw [hws]; decide +kernel)
    rw [hchosen, hword] at hexec
    exact ⟨_, hexec, rfl⟩

/-! ### Non-negative weights -/

/-- Adding a datum that is not negative does not lower a sum: the sum it starts from is itself a datum (R229). -/
theorem f64Val_le_fadd (x y : Word) (h : f64Finite (fadd x y) = true) (hx : 0 ≤ f64Val x) (hy : 0 ≤ f64Val y) :
    f64Val x ≤ f64Val (fadd x y) := by
  obtain ⟨hxf, hyf⟩ := finite_of_finite_fadd x y h
  obtain hzero | hpos := (Int.add_nonneg hx hy).eq_or_lt
  · rw [fadd_of_zero_sum x y hxf hyf hzero.symm]
    have hval : f64Val (signedBits (f64Sign x && f64Sign y) 0) = 0 := by cases f64Sign x && f64Sign y <;> decide
    omega
  · rw [fadd_of_pos_sum x y hxf hyf hpos] at h ⊢
    have hcases := f64Val_cases x
    have hle := datum_le_f64Mag_roundNearest false _ 1 x Nat.one_pos hxf (by omega) h
    rw [f64Val_of_positive _ (f64Sign_roundNearest false _ 1)]
    omega

theorem f64Val_le_foldl_fadd (ws : List Word) (c : Word) (hws : ∀ w ∈ ws, 0 ≤ f64Val w) (hc : 0 ≤ f64Val c)
    (h : f64Finite (ws.foldl fadd c) = true) : f64Val c ≤ f64Val (ws.foldl fadd c) := by
  induction ws generalizing c with
  | nil => exact le_rfl
  | cons w ws ih =>
    obtain ⟨hw, hws⟩ := List.forall_mem_cons.1 hws
    have hle := f64Val_le_fadd c w (finite_of_finite_foldl_fadd ws _ h).1 hc hw
    exact hle.trans (ih _ hws (hc.trans hle) h)

/-- No partial sum of non-negative weights is negative or exceeds their total. -/
theorem f64Val_total_take (ws : List Word) (k : Nat) (hws : ∀ w ∈ ws, 0 ≤ f64Val w) (h : f64Finite (total ws) = true) :
    0 ≤ f64Val (total (ws.take k)) ∧ f64Val (total (ws.take k)) ≤ f64Val (total ws) := by
  have hpart : 0 ≤ f64Val (total (ws.take k)) :=
    f64Val_le_foldl_fadd (ws.take k) 0 (fun w hw => hws w (List.mem_of_mem_take hw)) le_rfl (finite_total_take ws k h)
  rw [total_eq_foldl_drop ws k] at h ⊢
  exact ⟨hpart, f64Val_le_foldl_fadd _ _ (fun w hw => hws w (List.mem_of_mem_drop hw)) hpart h⟩

/-- A value below the total is exceeded by a partial sum, at the latest by the last. -/
theorem scanFrom_isSome_of_lt_total (ws : List Word) (r : Word) (hne : ws ≠ []) (h : f64Val r < f64Val (total ws)) :
    (scanFrom r 0 0 ws).isSome = true := by
  rw [Option.isSome_iff_ne_none, ne_eq, scanFrom_eq_none]
  intro hnone
  have hpos := List.length_pos_iff.2 hne
  have hlast := hnone (ws.length - 1) (Nat.sub_one_lt_of_lt hpos)
  rw [Nat.sub_add_cancel hpos, List.take_length, fgt, decide_eq_false_iff_not] at hlast
  exact hlast h

theorem scanFrom_total_eq_none (ws : List Word) (hws : ∀ w ∈ ws, 0 ≤ f64Val w) (h : f64Finite (total ws) = true) :
    scanFrom (total ws) 0 0 ws = none :=
  (scanFrom_eq_none ws _).2 fun j _ => decide_eq_false (f64Val_total_take ws (j + 1) hws h).2.not_gt

/-- A positive total that is normal is not reached (R161, R229). -/
theorem f64Val_fmul_u32ToUnit_lt (u : Word32) (t : Word) (ht : f64Finite t = true) (hnonneg : 0 ≤ f64Val t)
    (hexp : 1 ≤ f64Exp t) : f64Val (fmul (u32ToUnit u) t) < f64Val t := by
  have hlt := fmul_u32ToUnit_lt u t ht hexp
  obtain ⟨hs, hval⟩ | ⟨hs, hval⟩ := f64Val_cases t
  · rw [f64Val_of_positive _ ((f64Sign_fmul_u32ToUnit u t ht).trans hs)]
    omega
  · omega

/-- Settles O42: the partial sums rise to the total, which a value below it does not reach and a value equal to it does. -/
theorem fallbackIsNotReachedForNormalTotals : Obligations.FallbackIsNotReachedForNormalTotals := by
  refine ⟨fun ws u hws htotal => ⟨fun hexp => ?_, fun hr => ?_⟩, fun s h => ⟨fun hws => ?_, fun hws => ?_⟩⟩
  · have hnonneg := (f64Val_total_take ws ws.length (fun w hw => (hws w hw).2) htotal).1
    rw [List.take_length] at hnonneg
    have hlt := f64Val_fmul_u32ToUnit_lt u _ htotal hnonneg hexp
    refine ⟨hlt, scanFrom_isSome_of_lt_total ws _ ?_ hlt⟩
    rintro rfl
    exact absurd hexp (by decide)
  · rw [hr]
    exact scanFrom_total_eq_none ws (fun w hw => (hws w hw).2) htotal
  · rw [choiceDraw_of_atS42 s h, hws]
    exact ⟨by decide +kernel, by decide +kernel,
      answers_wchi_of_atS42 _ _ s h hws nofun (by decide +kernel) (by decide +kernel)⟩
  · rw [choiceDraw_of_atS42 s h, hws]
    exact ⟨by decide +kernel, by decide +kernel,
      answers_wchi_of_atS42 _ _ s h hws nofun (by decide +kernel) (by decide +kernel)⟩

end Sys2Proof.Machine
end

section
/-! PROOFS of the family 47_buffer_access: what a host write stores and leaves as it was, said once for both buffers; the host
read, for all three; and the commands that write and read the length registers. -/

namespace Sys2Proof.Machine

/-! ### `WRE` and `WRW` -/

/-- The words of a buffer after a host write, and all that the write leaves as it was (R241, R243). -/
theorem exec_hostWrite_of_lt (sp : Space) (index word : Word) (write : Instr) (s : State)
    (hwrite : exec write s = .next (hostWrite sp index word s)) (h : index.toNat < s.nMax.toNat) :
    ∃ t, exec write s = .next t ∧ RespondsOk 0 t ∧ memRead sp index.toNat t = word ∧
      (∀ i, i ≠ index.toNat → memRead sp i t = memRead sp i s) ∧ (∀ sp', sp' ≠ sp → SameBuffer sp' s t) ∧
      SameLengths s t ∧ SameInstance s t ∧ t.lcgState = s.lcgState := by
  rw [hostWrite_of_lt sp index word s h] at hwrite
  refine ⟨_, hwrite, rfl, ?_, fun i hi => ?_, fun sp' hsp i => ?_, ⟨rfl, rfl, rfl⟩, ⟨rfl, rfl, rfl, rfl, rfl⟩, rfl⟩
  · rw [memRead_respond, memRead_memWrite, if_pos ⟨rfl, rfl⟩]
  · rw [memRead_respond, memRead_memWrite, if_neg fun hboth => hi hboth.2]
  · rw [memRead_respond, memRead_memWrite, if_neg fun hboth => hsp hboth.1]

theorem faultsWith_hostWrite (sp : Space) (index word : Word) (write : Instr) (s : State)
    (hwrite : exec write s = .next (hostWrite sp index word s)) (h : s.nMax.toNat ≤ index.toNat) :
    FaultsWith write s .badIndex :=
  faultsWith_of_exec _ s _ (hwrite.trans (congrArg Host.Outcome.next (hostWrite_of_ge sp index word s h)))

/-- Settles O43: each command is the host write to its buffer. -/
theorem hostWritesStoreOneWord : Obligations.HostWritesStoreOneWord := by
  refine ⟨fun a b => ⟨decode_mkPacket _ a b, decode_mkPacket _ a b⟩, fun index word s h =>
    ⟨faultsWith_hostWrite .ebuf index word _ s rfl h, faultsWith_hostWrite .wbuf index word _ s rfl h⟩,
    fun index word s h => ⟨?_, ?_⟩⟩
  · obtain ⟨t, ht, hresponds, hword, hothers, hbuffers, hrest⟩ :=
      exec_hostWrite_of_lt .ebuf index word (.wre index word) s rfl h
    exact ⟨t, ht, hresponds, hword, hothers, hbuffers .wbuf nofun, hbuffers .obuf nofun, hrest⟩
  · obtain ⟨t, ht, hresponds, hword, hothers, hbuffers, hrest⟩ :=
      exec_hostWrite_of_lt .wbuf index word (.wrw index word) s rfl h
    exact ⟨t, ht, hresponds, hword, hothers, hbuffers .ebuf nofun, hbuffers .obuf nofun, hrest⟩

/-! ### `RDE`, `RDW` and `RDO` -/

theorem faultsWith_readCommand (sp : Space) (index : Word) (s : State) (h : s.nMax.toNat ≤ index.toNat) :
    FaultsWith (readCommand sp index) s .badIndex := by
  refine faultsWith_of_exec _ s _ ?_
  rw [← hostRead_of_ge sp index s h]
  cases sp <;> rfl

/-- A host read moves the response alone, which is no part of the word that a second read responds (R242; 20_memory.md R54). -/
theorem exec_readCommand_idempotent (sp : Space) (index : Word) (s : State) (h : index.toNat < s.nMax.toNat) :
    ∃ t, exec (readCommand sp index) s = .next t ∧ RespondsOk (memRead sp index.toNat s) t ∧ NothingMoves s t ∧
      exec (readCommand sp index) t = .next t :=
  ⟨_, exec_readCommand sp index s h, rfl, nothingMoves_setResponse s _, exec_readCommand sp index (respond _ s) h⟩

/-- Settles O44: the three commands are the host read of their buffer. -/
theorem hostReadsRespondOneWord : Obligations.HostReadsRespondOneWord :=
  ⟨fun a b => ⟨decode_mkPacket _ a b, decode_mkPacket _ a b, decode_mkPacket _ a b⟩,
    fun index s h => ⟨faultsWith_readCommand .ebuf index s h, faultsWith_readCommand .wbuf index s h,
      faultsWith_readCommand .obuf index s h⟩,
    fun index s h => ⟨exec_readCommand_idempotent .ebuf index s h, exec_readCommand_idempotent .wbuf index s h,
      exec_readCommand_idempotent .obuf index s h⟩⟩

/-! ### The length registers -/

theorem firstFault_badLength_of_gt (n : Word) (s : State) (h : s.nMax.toNat < n.toNat) :
    firstFault [(badLength n s, .badIndex)] = some .badIndex := by
  simp [firstFault, badLength, uval, h]

theorem firstFault_badLength_of_le (n : Word) (s : State) (h : n.toNat ≤ s.nMax.toNat) :
    firstFault [(badLength n s, .badIndex)] = none := by
  simp [firstFault, badLength, uval, Nat.not_lt.2 h]

theorem faultsWith_setlen (n : Word) (s : State) (h : s.nMax.toNat < n.toNat) : FaultsWith (.setlen n) s .badIndex :=
  faultsWith_of_exec _ s _ (congrArg Host.Outcome.next (runCommand_of_some _ _ s _ (firstFault_badLength_of_gt n s h)))

theorem faultsWith_setwlen (n : Word) (s : State) (h : s.nMax.toNat < n.toNat) : FaultsWith (.setwlen n) s .badIndex :=
  faultsWith_of_exec _ s _ (congrArg Host.Outcome.next (runCommand_of_some _ _ s _ (firstFault_badLength_of_gt n s h)))

theorem exec_setlen_of_le (n : Word) (s : State) (h : n.toNat ≤ s.nMax.toNat) :
    exec (.setlen n) s = .next (respond 0 { s with len := lengthOf n }) :=
  congrArg Host.Outcome.next (runCommand_of_none _ _ s (firstFault_badLength_of_le n s h))

theorem exec_setwlen_of_le (n : Word) (s : State) (h : n.toNat ≤ s.nMax.toNat) :
    exec (.setwlen n) s = .next (respond 0 { s with wlen := lengthOf n }) :=
  congrArg Host.Outcome.next (runCommand_of_none _ _ s (firstFault_badLength_of_le n s h))

/-- With no elements `SHUF` and `PERM` respond their number (R245). -/
theorem answers_permutations_of_len_zero (s : State) (h : s.len = 0) : Answers .shuf s 0 ∧ Answers .perm s 0 := by
  obtain ⟨t, ht, hshuf, -⟩ := exec_shuf s
  obtain ⟨u, hu, hperm, -⟩ := exec_perm s
  rw [h] at hshuf hperm
  exact ⟨⟨t, ht, hshuf⟩, u, hu, hperm⟩

theorem faultsWith_wchi_of_wlen_zero (s : State) (h : s.wlen = 0) : FaultsWith .wchi s .emptyInput :=
  faultsWith_wchi s _ (by rw [firstFault_choiceChecks, if_pos h])

/-- Settles O45: each command writes its register alone, and a register of 0 is what the last clauses are about. -/
theorem lengthsAreSetUpToCapacity : Obligations.LengthsAreSetUpToCapacity := by
  refine ⟨fun a b => ⟨decode_mkPacket _ a b, decode_mkPacket _ a b⟩,
    fun n s h => ⟨faultsWith_setlen n s h, faultsWith_setwlen n s h⟩, fun n s h => ⟨?_, ?_⟩⟩
  · refine ⟨_, exec_setlen_of_le n s h, rfl, lengthOf_toNat n s h, rfl, rfl, fun _ _ => rfl, ⟨rfl, rfl, rfl, rfl, rfl⟩, rfl,
      ?_⟩
    rintro rfl
    exact answers_permutations_of_len_zero _ rfl
  · refine ⟨_, exec_setwlen_of_le n s h, rfl, lengthOf_toNat n s h, rfl, rfl, fun _ _ => rfl, ⟨rfl, rfl, rfl, rfl, rfl⟩, rfl,
      ?_⟩
    rintro rfl
    exact faultsWith_wchi_of_wlen_zero _ rfl

theorem exec_getlen (s : State) : exec .getlen s = .next (respond (zext s.len) s) := rfl

theorem exec_getwlen (s : State) : exec .getwlen s = .next (respond (zext s.wlen) s) := rfl

theorem exec_getolen (s : State) : exec .getolen s = .next (respond (zext s.olen) s) := rfl

/-- Settles O46: each command responds its register zero-extended, and reset leaves 0 in it. -/
theorem lengthsAreReadBack : Obligations.LengthsAreReadBack :=
  ⟨fun a b => ⟨decode_mkPacket _ a b, decode_mkPacket _ a b, decode_mkPacket _ a b⟩,
    fun s => ⟨⟨_, _, exec_getlen s, rfl, zext_toNat _, nothingMoves_setResponse s _⟩,
      ⟨_, _, exec_getwlen s, rfl, zext_toNat _, nothingMoves_setResponse s _⟩,
      ⟨_, _, exec_getolen s, rfl, zext_toNat _, nothingMoves_setResponse s _⟩⟩,
    fun _ _ => ⟨⟨_, exec_getlen _, rfl⟩, ⟨_, exec_getwlen _, rfl⟩, ⟨_, exec_getolen _, rfl⟩⟩⟩

end Sys2Proof.Machine
end

section
/-! PROOFS of the family 60_exceptions: the checks of every command, what it does when one of them holds and when none does, and
the status that they give. -/

namespace Sys2Proof.Machine

/-! ### The checks of a command -/

/-- The checks that a command makes before its effect, in their order (R266). -/
def commandChecks (s : State) : Instr → List (Bool × Status)
  | .init _ | .nextu32 | .nextint0 | .nextflt0 | .perm | .shuf | .getlen | .getwlen | .getolen => []
  | .nextint1 bound => [(decide (sval bound = 0), .invalidRange)]
  | .nextint2 min max => [(decide (sval max ≤ sval min), .invalidRange)]
  | .nextflt1 bound => floatBoundChecks bound
  | .nextflt2 min max => floatRangeChecks min max
  | .permn n | .setlen n | .setwlen n => [(badLength n s, .badIndex)]
  | .wchi => choiceChecks false s
  | .wche => choiceChecks true s
  | .wre index _ | .rde index | .wrw index _ | .rdw index | .rdo index => [(badIndex index s, .badIndex)]

/-- A command one of whose checks holds is the taking of that fault. -/
theorem exec_of_fault (i : Instr) (s : State) (f : Status) (h : firstFault (commandChecks s i) = some f) :
    exec i s = .next (raiseFault f s) := by
  cases i with
  | init | nextu32 | nextint0 | nextflt0 | perm | shuf | getlen | getwlen | getolen => cases h
  | nextint1 | nextint2 | nextflt1 | nextflt2 | permn | wchi | wche | wre | rde | wrw | rdw | rdo | setlen | setwlen =>
    exact congrArg Host.Outcome.next (runCommand_of_some _ _ s f h)

/-- A command none of whose checks holds answers `OK`, and `STATE` is what its listed draws leave
(70_reset_and_hazards.md R304). -/
theorem exec_of_no_fault (i : Instr) (s : State) (h : firstFault (commandChecks s i) = none) :
    ∃ t v, exec i s = .next t ∧ RespondsOk v t ∧
      t.lcgState.toNat = afterDraws s (drawCount s i) (drawsStartFrom s i) := by
  cases i with
  | init seed => exact ⟨_, _, exec_init seed s, rfl, lcg_seed_toNat seed s⟩
  | nextu32 | nextint0 | nextflt0 => exact ⟨_, _, rfl, rfl, oneDraw_nextU32 s⟩
  | nextint1 | nextint2 | nextflt1 | nextflt2 | wchi | wche =>
    exact ⟨_, _, congrArg Host.Outcome.next (runCommand_of_none _ _ s h), rfl, oneDraw_nextU32 s⟩
  | perm =>
    obtain ⟨t, ht, hresponds, -, hholds⟩ := exec_perm s
    have hdraws := hholds.lcgState_toNat
    rw [elementList_length] at hdraws
    exact ⟨t, _, ht, hresponds, hdraws⟩
  | permn n =>
    obtain ⟨t, ht, hresponds, -, hholds⟩ := exec_permn_of_le n s (le_of_badLength_check n s h)
    have hdraws := hholds.lcgState_toNat
    rw [indexWords_length] at hdraws
    exact ⟨t, _, ht, hresponds, hdraws⟩
  | shuf =>
    obtain ⟨t, ht, hresponds, hholds⟩ := exec_shuf s
    have hdraws := hholds.lcgState_toNat
    rw [elementList_length] at hdraws
    exact ⟨t, _, ht, hresponds, hdraws⟩
  | wre | rde | wrw | rdw | rdo | setlen | setwlen =>
    exact ⟨_, _, congrArg Host.Outcome.next (runCommand_of_none _ _ s h), rfl, rfl⟩
  | getlen | getwlen | getolen => exact ⟨_, _, rfl, rfl, rfl⟩

/-! ### The status that the checks give -/

/-- The status of the response to a command with these checks (R261, R266). -/
def checkedStatus (checks : List (Bool × Status)) : Status := (firstFault checks).getD .ok

theorem checkedStatus_single (p : Prop) [Decidable p] (f : Status) :
    checkedStatus [(decide p, f)] = if p then f else .ok := by
  by_cases h : p <;> simp [checkedStatus, firstFault, h]

theorem checkedStatus_floatBoundChecks (t : Word) :
    checkedStatus (floatBoundChecks t) = if badTotal t then .invalidRange else .ok := by
  rw [checkedStatus, firstFault_floatBoundChecks]
  split <;> rfl

/-- The difference of a range overflows to `+∞` or is finite (R263; 44_float_converter.md R162). -/
theorem fsub_not_finite_iff (min max : Word) (hmin : f64Finite min = true) (hmax : f64Finite max = true)
    (hlt : f64Val min < f64Val max) : f64Finite (fsub max min) = false ↔ fsub max min = plusInfinity := by
  constructor
  · intro h
    rw [fsub_of_lt min max hmin hmax hlt] at h ⊢
    have hoverflow : overflowUnits * 1 ≤ (f64Val max - f64Val min).toNat := by
      rw [← Nat.not_lt, ← f64Finite_roundNearest false _ 1 Nat.one_pos, h]
      exact Bool.false_ne_true
    rw [roundNearest_of_overflow false _ 1 Nat.one_pos hoverflow, signedBits_infinity]
    rfl
  · intro h
    rw [h]
    decide

theorem checkedStatus_floatRangeChecks (s : State) (min max : Word) :
    checkedStatus (floatRangeChecks min max) = expectedStatus s (.nextflt2 min max) := by
  simp only [checkedStatus, floatRangeChecks, firstFault, expectedStatus, flt]
  by_cases hfinite : f64Finite min = false ∨ f64Finite max = false
  · rw [if_pos hfinite, if_pos (by simpa using hfinite)]
    rfl
  · rw [if_neg hfinite, if_neg (by simpa using hfinite)]
    by_cases hlt : f64Val min < f64Val max
    · simp only [not_or, Bool.not_eq_false] at hfinite
      obtain ⟨hmin, hmax⟩ := hfinite
      simp only [← fsub_not_finite_iff min max hmin hmax hlt, hlt]
      cases f64Finite (fsub max min) <;> rfl
    · simp [hlt]

theorem checkedStatus_choiceChecks (withItems : Bool) (s : State) :
    checkedStatus (choiceChecks withItems s) =
      if s.wlen.toNat = 0 then .emptyInput
      else if withItems = true ∧ s.len.toNat ≠ s.wlen.toNat then .lengthMismatch
      else if badTotal (total (weights s)) then .invalidRange else .ok := by
  rw [checkedStatus, firstFault_choiceChecks, weights_eq]
  have hzero : s.wlen.toNat = 0 ↔ s.wlen = 0 := (BitVec.toNat_eq (y := 0)).symm
  simp only [hzero, ne_eq, BitVec.toNat_inj]
  split_ifs <;> rfl

/-- The checks give the causes of the table, in its order (R263 to R266). -/
theorem checkedStatus_commandChecks (i : Instr) (s : State) : checkedStatus (commandChecks s i) = expectedStatus s i := by
  cases i with
  | init | nextu32 | nextint0 | nextflt0 | perm | shuf | getlen | getwlen | getolen => rfl
  | nextint1 | nextint2 => simp only [commandChecks, sval_eq_toInt, checkedStatus_single, expectedStatus]
  | permn | setlen | setwlen | wre | rde | wrw | rdw | rdo => exact checkedStatus_single _ _
  | nextflt1 bound => exact checkedStatus_floatBoundChecks bound
  | nextflt2 min max => exact checkedStatus_floatRangeChecks s min max
  | wchi | wche => simp [commandChecks, checkedStatus_choiceChecks, expectedStatus]

/-- No check reports `OK`. -/
theorem ne_ok_of_firstFault_commandChecks (i : Instr) (s : State) (f : Status)
    (h : firstFault (commandChecks s i) = some f) : f ≠ .ok := by
  obtain ⟨before, after, hchecks, -⟩ := firstFault_eq_some _ f h
  have hmem : (true, f) ∈ commandChecks s i := hchecks ▸ List.mem_append_right before List.mem_cons_self
  have hall : ∀ c ∈ commandChecks s i, c.2 ≠ .ok := by
    cases i <;> simp [commandChecks, floatBoundChecks, floatRangeChecks, choiceChecks]
  exact hall _ hmem

/-- Settles O49: the response carries the status that the checks give. -/
theorem faultsHaveTheirListedCauses : Obligations.FaultsHaveTheirListedCauses := by
  intro i s
  rw [← checkedStatus_commandChecks, checkedStatus]
  cases h : firstFault (commandChecks s i) with
  | some f => exact ⟨_, 0, exec_of_fault i s f h, rfl⟩
  | none =>
    obtain ⟨t, v, ht, hresponds, -⟩ := exec_of_no_fault i s h
    exact ⟨t, v, ht, hresponds⟩

/-! ### What a faulting command changes -/

/-- A command with a response takes a fault, which is not `OK`, or answers `OK` after its listed draws. -/
theorem exec_cases (i : Instr) (s t : State) (r : Response) (ht : exec i s = .next t) (hr : t.response = some r) :
    (r.status ≠ .ok ∧ t = raiseFault r.status s) ∨
    (r.status = .ok ∧ t.lcgState.toNat = afterDraws s (drawCount s i) (drawsStartFrom s i)) := by
  cases h : firstFault (commandChecks s i) with
  | some f =>
    cases ht.symm.trans (exec_of_fault i s f h)
    cases hr
    exact .inl ⟨ne_ok_of_firstFault_commandChecks i s f h, rfl⟩
  | none =>
    obtain ⟨u, v, hu, hresponds, hdraws⟩ := exec_of_no_fault i s h
    cases ht.symm.trans hu
    cases hr.symm.trans hresponds
    exact .inr ⟨rfl, hdraws⟩

theorem eq_raiseFault_of_exec (i : Instr) (s t : State) (r : Response) (ht : exec i s = .next t) (hr : t.response = some r)
    (hfault : r.status ≠ .ok) : t = raiseFault r.status s := by
  obtain ⟨-, hraised⟩ | ⟨hok, -⟩ := exec_cases i s t r ht hr
  · exact hraised
  · exact absurd hok hfault

/-- Settles O50: a step executes its command in the state from which the packet was taken, or refuses the packet there. -/
theorem faultingCommandsChangeNothing : Obligations.FaultingCommandsChangeNothing := by
  refine ⟨eq_raiseFault_of_exec, fun s t p rest r hcommands ht hr hfault => ?_⟩
  cases hp : decode p with
  | command i =>
    rw [step_of_command s p rest i hcommands hp] at ht
    exact eq_raiseFault_of_exec i { s with commands := rest } t r ht hr hfault
  | reserved op =>
    cases ht.symm.trans (step_of_reserved s p rest op hcommands hp)
    cases hr
    rfl

end Sys2Proof.Machine
end

section
/-! PROOFS of the family 70_reset_and_hazards: the draws of every command, and the state after reset. -/

namespace Sys2Proof.Machine

/-- Settles O51: a fault leaves `STATE`, as does the refusal of a packet, and any other command is `exec_of_no_fault`. -/
theorem commandsMakeTheirListedDraws : Obligations.CommandsMakeTheirListedDraws := by
  refine ⟨fun i s t r ht hr => ?_, fun s t p rest hcommands hop ht => ?_⟩
  · obtain ⟨hfault, hraised⟩ | ⟨hok, hdraws⟩ := exec_cases i s t r ht hr
    · exact ⟨fun hok => absurd hok hfault, fun _ => hraised ▸ rfl⟩
    · exact ⟨fun _ => hdraws, fun hfault => absurd hok hfault⟩
  · cases ht.symm.trans (step_of_reserved s p rest _ hcommands (decodeFields_of_notMem _ _ _ hop))
    rfl

/-- Settles O56: the registers are those that reset loads, and the first commands after it are executed on them. -/
theorem resetRunsNoInit : Obligations.ResetRunsNoInit := fun c p =>
  ⟨rfl, rfl, rfl, rfl, rfl, rfl,
    ⟨_, _, exec_nextu32 (State.resetWith c p), rfl, (zext_toNat _).trans (xshRr_toNat _), lcg_toNat _ _ _⟩,
    fun seed => ⟨_, exec_init seed (State.resetWith c p), lcg_seed_toNat seed (State.resetWith c p)⟩,
    rfl, rfl, ⟨_, exec_getolen _, rfl⟩⟩

end Sys2Proof.Machine
end
